-- ==== Sys2Proof/Word.lean ====
section
/-! DEFINITION. The bit vectors of the host side of AACORE: the 32-bit word of the bus and the
command slot, and the 16-bit byte address. Operand registers are `BitVec W`, with W from Config. -/

namespace Sys2Proof

/-- A 32-bit word: a command word, a control register, bus data (R60, R66, R90). -/
abbrev Word := BitVec 32

/-- A byte address of the register space (R61). -/
abbrev Addr := BitVec 16

end Sys2Proof
end

