-- ==== Sys2Proof/Config.lean ====
section
/-! DEFINITION. The configuration of one AACORE (R6) and the fixed parameters (R7). -/

namespace Sys2Proof

/-- The configuration parameter K of R6, with its range `1 <= K <= 64`. A state carries its
configuration, so every statement over all states is a statement over every K. -/
structure Config where
  K : Nat
  one_le_K : 1 ≤ K
  K_le_64 : K ≤ 64
  deriving DecidableEq, Repr

/-- The operand width `W = 32 * K` (R6). -/
abbrev Config.W (c : Config) : Nat := 32 * c.K

/-- The reference configuration K = 2, W = 64 (R6). -/
def Config.reference : Config := ⟨2, by decide, by decide⟩

/-- `NREG` of R7: the registers R0 to R15. -/
abbrev nreg : Nat := 16

/-- `DEFAULT_ROUNDS` of R7. -/
abbrev defaultRounds : Nat := 10

/-- `MAX_ROUNDS` of R7. -/
abbrev maxRounds : Nat := 255

/-- `ID_VALUE` of R7: block signature 0xAAC0 and architecture version 1 (R31). -/
abbrev idValue : Word := 0xAAC00001#32

end Sys2Proof
end

