-- ==== Sys2Proof/Syntax.lean ====
section
/-! DEFINITION. The commands of AACORE (R94), one constructor for each row of the opcode table. -/

namespace Sys2Proof

/-- A register index, 0 to 15. Every index names a register and none is special (R92). -/
abbrev Reg := Fin 16

/-- The eleven commands, operands in the assembler's order (R98). -/
inductive Instr where
  | nop
  | montmul (rd ra rb rn : Reg)
  | tomont (rd ra rn : Reg)
  | frommont (rd ra rn : Reg)
  | modmul (rd ra rb rn : Reg)
  | modexp (rd ra re rn : Reg)
  | egcd (rg rx ry ra rb : Reg)
  | gcd (rd ra rb : Reg)
  | modinv (rd ra rn : Reg)
  | mrround (rd rn ra : Reg)
  | mrtest (rd rn : Reg) (imm8 : BitVec 8)
  deriving DecidableEq, Repr

end Sys2Proof
end

