-- ==== Sys2Proof/Machine/State.lean ====
section
/-! DEFINITION. The state of AACORE (spec/10_state.md), the events of the world outside it, and the
state after reset. Everything here is plain data. -/

namespace Sys2Proof.Machine

/-- The error codes that a command can end in (R212). Code 0 is "no error" and is the absence of an
`ErrorCode`; codes 8 to 15 are never produced (I22) and so have no constructor. -/
inductive ErrorCode where
  | illegal | domain | range | noinv | overflow | rng | aborted
  deriving DecidableEq, Repr

/-- MRTEST's verdict (R23, R192): `undecided`, 0, 1 or `error(RNG)`. -/
inductive Verdict where
  | undecided | composite | probablePrime | rngError
  deriving DecidableEq, Repr

/-- The source operand latches S1 to S5 (R23). A latch the command does not use has no value
(R122). -/
structure Latches (W : Nat) where
  s1 : Option (BitVec W)
  s2 : Option (BitVec W)
  s3 : Option (BitVec W)
  s4 : Option (BitVec W)
  s5 : Option (BitVec W)
  deriving DecidableEq, Repr

/-- MRTEST's hidden state (R23, R192): the rounds passed so far, the total, and the verdict. -/
structure MrState where
  roundIdx : Nat
  rounds : Nat
  verdict : Verdict
  deriving DecidableEq, Repr

/-- What the engine holds while a command is in execution (R23): `cur`, S1 to S5, and for MRTEST
alone its round state. -/
structure Job (W : Nat) where
  cur : Word
  latches : Latches W
  mr : Option MrState
  deriving DecidableEq, Repr

/-- The engine phase (R23). The hidden state exists in EXEC only: in IDLE it is meaningless and no
rule reads it (DEDUCED, log entry 4). -/
inductive Phase (W : Nat) where
  | idle
  | exec (job : Job W)
  deriving DecidableEq, Repr

/-- The state of one AACORE of operand width W: exactly the rows of R40's table that are state.
BUSY is the phase and RNGREQ is `rngPending` (R34); `irq`, ID, PARAM and the register readings are
computed in Flags and Bus. -/
structure Aacore (W : Nat) where
  /-- R0 to R15 (R20) -/
  regs : Vector (BitVec W) nreg
  /-- IDLE or EXEC, with the hidden state of EXEC (R23) -/
  phase : Phase W
  /-- LASTCMD, what a read of CMD returns (R33) -/
  lastcmd : Word
  /-- STATUS.DONE (R34) -/
  done : Bool
  /-- STATUS.ERR (R34) -/
  err : Bool
  /-- STATUS.OVR (R34) -/
  ovr : Bool
  /-- STATUS.ECODE, none for code 0 (R34, R212) -/
  ecode : Option ErrorCode
  /-- CTRL.IRQEN (R36) -/
  irqen : Bool
  /-- ECMD (R38) -/
  ecmd : Word
  /-- 1 while a randomness request is outstanding (R23, R196) -/
  rngPending : Bool
  /-- the `rng_lo` output (R196, R197) -/
  rngLo : BitVec W
  /-- the `rng_hi` output (R196, R197) -/
  rngHi : BitVec W
  deriving DecidableEq, Repr

/-- The state after a hardware or a soft reset (R40). -/
def Aacore.reset (W : Nat) : Aacore W :=
  { regs := Vector.replicate nreg 0#W
    phase := .idle
    lastcmd := 0x00000000#32
    done := false
    err := false
    ovr := false
    ecode := none
    irqen := false
    ecmd := 0x00000000#32
    rngPending := false
    rngLo := 0#W
    rngHi := 0#W }

/-- A host bus transaction of 32 bits (R62, R63, R65). -/
inductive Transaction where
  | read (addr : Addr)
  | write (addr : Addr) (data : Word)
  deriving DecidableEq, Repr

/-- One event of the world that drives AACORE (R12, R14, R71). Each is one transition of the
model; a list of them is one interleaving of host, engine, environment and reset. -/
inductive Event (W : Nat) where
  /-- the host presents a transaction (`bus_valid = 1`) -/
  | host (t : Transaction)
  /-- the environment drives `rng_ack = 1` with `rng_val = v` (R196) -/
  | answer (v : BitVec W)
  /-- the engine takes its next event: a completion or a randomness request (R124, R197) -/
  | engine
  /-- a clock cycle in which none of the other events happens (R64, R8 `LAT`) -/
  | quiet
  /-- a cycle in which the `rst` pin is sampled at this level (R240) -/
  | rst (level : Bool)
  deriving DecidableEq, Repr

/-- The bus response of a completed transaction: `bus_err`, and for a read `bus_rdata` (R60). -/
inductive BusResponse where
  | read (err : Bool) (rdata : Word)
  | write (err : Bool)
  deriving DecidableEq, Repr

/-- The model's state: the configuration, AACORE's own state, and the pins with the world's pending
events. `inputs` and `response` are the model's own fields (DESIGN CHOICE, log entries 2 and 3). -/
structure State where
  /-- the configuration, which no step changes (R6; log entry 1) -/
  cfg : Config
  /-- AACORE's state (R40) -/
  core : Aacore cfg.W
  /-- the level at which `rst` was last sampled (R60, R240) -/
  rst : Bool
  /-- the events of the outside world that are still to come, oldest first -/
  inputs : List (Event cfg.W)
  /-- the transaction that completed in the last step, as the bus outputs show it -/
  response : Option BusResponse
  deriving DecidableEq, Repr

/-- The state right after reset of the machine configured as `c` (R40), with no event pending. -/
def State.resetOf (c : Config) : State :=
  { cfg := c, core := Aacore.reset c.W, rst := false, inputs := [], response := none }

/-- The state right after reset, in the reference configuration K = 2 (R6; DESIGN CHOICE, log
entry 1). -/
def State.reset : State := State.resetOf Config.reference

/-- Why a step can stop. -/
inductive Fault where
  /-- Raised by the engine event and by the environment's answer when the phase is EXEC but the
  hidden state of R23 is not there: `cur` is no command word, or a latch or the round state that
  the command reads holds no value. R23 excludes such states and `Aacore.Inv` says so, so no run
  from reset reaches one. Safe: the model stops where the spec gives the machine no behaviour. -/
  | meaninglessEngineState
  deriving DecidableEq, Repr

/-- Why an instruction has no meaning. -/
inductive Refusal where
  /-- Raised by `exec`'s arm of an instruction that has no meaning yet. Safe: nothing follows of a
  step that is refused. No arm raises it at present. -/
  | notModelled (mnemonic : String)
  deriving DecidableEq, Repr

end Sys2Proof.Machine
end

