-- ==== Sys2Proof/Machine/Flags.lean ====
section
/-! DEFINITION. The status and control registers as words, the W1C write of STATUS, and the output
pins computed from the state (R34 to R37, R60, R216). AACORE has no condition codes (R39). -/

namespace Sys2Proof.Machine

variable {W : Nat}

/-- STATUS.BUSY: the phase is EXEC (R23, R34). -/
def Aacore.busy (m : Aacore W) : Bool :=
  match m.phase with
  | .idle => false
  | .exec _ => true

/-- The value of an error code in STATUS.ECODE (R212). -/
def ErrorCode.bits : ErrorCode → BitVec 4
  | .illegal => 1#4
  | .domain => 2#4
  | .range => 3#4
  | .noinv => 4#4
  | .overflow => 5#4
  | .rng => 6#4
  | .aborted => 7#4

/-- The ECODE field: 0 when there is no error (R34, R212). -/
def ecodeBits : Option ErrorCode → BitVec 4
  | none => 0#4
  | some c => c.bits

/-- What a read of STATUS returns (R34): reserved bits, RNGREQ, ECODE, OVR, ERR, DONE, BUSY. -/
def Aacore.statusWord (m : Aacore W) : Word :=
  0#23 ++ BitVec.ofBool m.rngPending ++ ecodeBits m.ecode ++ BitVec.ofBool m.ovr
    ++ BitVec.ofBool m.err ++ BitVec.ofBool m.done ++ BitVec.ofBool m.busy

/-- What a read of CTRL returns: `{29'b0, 0, 0, IRQEN}` (R36). -/
def Aacore.ctrlWord (m : Aacore W) : Word :=
  0#29 ++ 0#1 ++ 0#1 ++ BitVec.ofBool m.irqen

/-- What a read of PARAM returns (R32): VERSION, DEFROUNDS, NREG, K. -/
def paramWord (c : Config) : Word :=
  1#8 ++ BitVec.ofNat 8 defaultRounds ++ BitVec.ofNat 8 nreg ++ BitVec.ofNat 8 c.K

/-- A write of `v` to STATUS: write 1 to clear DONE, ERR with ECODE, and OVR (R35). -/
def Aacore.writeStatus (m : Aacore W) (v : Word) : Aacore W :=
  { m with
    done := m.done && !v[1]
    err := m.err && !v[2]
    ecode := if v[2] then none else m.ecode
    ovr := m.ovr && !v[3] }

/-- The `irq` equation of R216. -/
def Aacore.irq (m : Aacore W) : Bool := m.irqen && (m.done || m.err)

/-- The output pins of R60. `busErr` and `busRdata` are none where R60 does not call them valid. -/
structure Outputs (W : Nat) where
  busReady : Bool
  busErr : Option Bool
  busRdata : Option Word
  irq : Bool
  rngReq : Bool
  rngLo : BitVec W
  rngHi : BitVec W
  deriving DecidableEq, Repr

/-- The pins in the cycle after a step. While `rst = 1` the bus is not ready and `irq`, `rng_req`
and the bounds are 0 (R64, R240). -/
def State.outputs (s : State) : Outputs s.cfg.W :=
  { busReady := !s.rst
    busErr := match s.response with
      | none => none
      | some (.read e _) => some e
      | some (.write e) => some e
    busRdata := match s.response with
      | some (.read _ d) => some d
      | _ => none
    irq := !s.rst && s.core.irq
    rngReq := !s.rst && s.core.rngPending
    rngLo := if s.rst || !s.core.rngPending then 0 else s.core.rngLo
    rngHi := if s.rst || !s.core.rngPending then 0 else s.core.rngHi }

end Sys2Proof.Machine
end

