-- ==== Sys2Proof/WellFormed.lean ====
section
/-! DEFINITION. Which commands are legal beyond the shape of their fields: condition 3 of R95. -/

namespace Sys2Proof

/-- Condition 3 of R95: EGCD's three destinations are pairwise different. No other command has
more than one destination, so no other command has a check here. Sources may equal destinations or
each other. -/
def Instr.wellFormed : Instr → Bool
  | .egcd rg rx ry _ _ => rg != rx && rg != ry && rx != ry
  | .nop => true
  | .montmul _ _ _ _ => true
  | .tomont _ _ _ => true
  | .frommont _ _ _ => true
  | .modmul _ _ _ _ => true
  | .modexp _ _ _ _ => true
  | .gcd _ _ _ => true
  | .modinv _ _ _ => true
  | .mrround _ _ _ => true
  | .mrtest _ _ _ => true

/-- A command that R95's condition 3 allows. -/
abbrev Instr.WellFormed (i : Instr) : Prop := i.wellFormed = true

end Sys2Proof
end

