-- ==== Sys2Proof/Decode.lean ====
section
/-! DEFINITION. The decoder and the encoder of the 32-bit command word (R90 to R98), and the mask
test of R95. -/

namespace Sys2Proof

/-- Why a word is no command: the two ways R95's conditions 1 and 2 fail. Both raise ILLEGAL at
acceptance (R95, R96). -/
inductive DecodeReject where
  /-- `w[31:24]` is none of the eleven opcodes of R94 (R95 condition 1, R96). -/
  | reservedOpcode
  /-- a field that the format marks `0` in R91 is not zero (R95 condition 2). -/
  | reservedField
  deriving DecidableEq, Repr

/-- What the decoder answers. -/
inductive Decoded where
  | ok (i : Instr)
  | reject (why : DecodeReject)
  deriving DecidableEq, Repr

/-- `OP`, bits 31:24 (R90). -/
def opField (w : Word) : BitVec 8 := w.extractLsb' 24 8

/-- A 4-bit register field as the index it names (R92). -/
def regField (w : Word) (lo : Nat) : Reg := (w.extractLsb' lo 4).toFin

/-- Register field A, bits 23:20 (R90). -/
def fieldA (w : Word) : Reg := regField w 20
/-- Register field B, bits 19:16 (R90). -/
def fieldB (w : Word) : Reg := regField w 16
/-- Register field C, bits 15:12 (R90). -/
def fieldC (w : Word) : Reg := regField w 12
/-- Register field D, bits 11:8 (R90). -/
def fieldD (w : Word) : Reg := regField w 8
/-- Register field E, bits 7:4 (R90). -/
def fieldE (w : Word) : Reg := regField w 4
/-- `IMM8`, bits 7:0 (R90, R93). -/
def immField (w : Word) : BitVec 8 := w.extractLsb' 0 8

/-- The command, provided that the `len` reserved bits from bit `lo` up are zero (R95 condition 2). -/
def ifZero (w : Word) (lo len : Nat) (i : Instr) : Decoded :=
  if w.extractLsb' lo len = 0 then .ok i else .reject .reservedField

/-- R97: the opcode byte selects the format, then the reserved fields of R91 are checked. This is
conditions 1 and 2 of R95; condition 3 is `Instr.wellFormed`. -/
def decode (w : Word) : Decoded :=
  match opField w with
  | 0x00#8 => ifZero w 0 24 .nop
  | 0x10#8 => ifZero w 0 8 (.montmul (fieldA w) (fieldB w) (fieldC w) (fieldD w))
  | 0x11#8 => ifZero w 0 12 (.tomont (fieldA w) (fieldB w) (fieldC w))
  | 0x12#8 => ifZero w 0 12 (.frommont (fieldA w) (fieldB w) (fieldC w))
  | 0x13#8 => ifZero w 0 8 (.modmul (fieldA w) (fieldB w) (fieldC w) (fieldD w))
  | 0x20#8 => ifZero w 0 8 (.modexp (fieldA w) (fieldB w) (fieldC w) (fieldD w))
  | 0x30#8 => ifZero w 0 4 (.egcd (fieldA w) (fieldB w) (fieldC w) (fieldD w) (fieldE w))
  | 0x31#8 => ifZero w 0 12 (.gcd (fieldA w) (fieldB w) (fieldC w))
  | 0x32#8 => ifZero w 0 12 (.modinv (fieldA w) (fieldB w) (fieldC w))
  | 0x40#8 => ifZero w 0 12 (.mrround (fieldA w) (fieldB w) (fieldC w))
  | 0x41#8 => ifZero w 8 8 (.mrtest (fieldA w) (fieldB w) (immField w))
  | _ => .reject .reservedOpcode

/-- R95: a word is legal when all three conditions hold. -/
def legal (w : Word) : Bool :=
  match decode w with
  | .ok i => i.wellFormed
  | .reject _ => false

/-- The 4 bits that name a register. -/
def regBits (r : Reg) : BitVec 4 := BitVec.ofFin r

/-- The command word, as R98's encoding column concatenates it. -/
def encode : Instr → Word
  | .nop => 0x00000000#32
  | .montmul rd ra rb rn => 0x10#8 ++ regBits rd ++ regBits ra ++ regBits rb ++ regBits rn ++ 0#8
  | .tomont rd ra rn => 0x11#8 ++ regBits rd ++ regBits ra ++ regBits rn ++ 0#12
  | .frommont rd ra rn => 0x12#8 ++ regBits rd ++ regBits ra ++ regBits rn ++ 0#12
  | .modmul rd ra rb rn => 0x13#8 ++ regBits rd ++ regBits ra ++ regBits rb ++ regBits rn ++ 0#8
  | .modexp rd ra re rn => 0x20#8 ++ regBits rd ++ regBits ra ++ regBits re ++ regBits rn ++ 0#8
  | .egcd rg rx ry ra rb =>
    0x30#8 ++ regBits rg ++ regBits rx ++ regBits ry ++ regBits ra ++ regBits rb ++ 0#4
  | .gcd rd ra rb => 0x31#8 ++ regBits rd ++ regBits ra ++ regBits rb ++ 0#12
  | .modinv rd ra rn => 0x32#8 ++ regBits rd ++ regBits ra ++ regBits rn ++ 0#12
  | .mrround rd rn ra => 0x40#8 ++ regBits rd ++ regBits rn ++ regBits ra ++ 0#12
  | .mrtest rd rn imm8 => 0x41#8 ++ regBits rd ++ regBits rn ++ 0#8 ++ imm8

/-- The mask and the match of a command's row in the opcode table: the mask test of R95. -/
structure MaskTest where
  mask : Word
  pattern : Word
  deriving DecidableEq, Repr

/-- The row of the opcode table that a command belongs to. -/
def Instr.row : Instr → MaskTest
  | .nop => ⟨0xFFFFFFFF#32, 0x00000000#32⟩
  | .montmul _ _ _ _ => ⟨0xFF0000FF#32, 0x10000000#32⟩
  | .tomont _ _ _ => ⟨0xFF000FFF#32, 0x11000000#32⟩
  | .frommont _ _ _ => ⟨0xFF000FFF#32, 0x12000000#32⟩
  | .modmul _ _ _ _ => ⟨0xFF0000FF#32, 0x13000000#32⟩
  | .modexp _ _ _ _ => ⟨0xFF0000FF#32, 0x20000000#32⟩
  | .egcd _ _ _ _ _ => ⟨0xFF00000F#32, 0x30000000#32⟩
  | .gcd _ _ _ => ⟨0xFF000FFF#32, 0x31000000#32⟩
  | .modinv _ _ _ => ⟨0xFF000FFF#32, 0x32000000#32⟩
  | .mrround _ _ _ => ⟨0xFF000FFF#32, 0x40000000#32⟩
  | .mrtest _ _ _ => ⟨0xFF00FF00#32, 0x41000000#32⟩

/-- The eleven rows of the opcode table, in its order. -/
def opcodeTable : List MaskTest :=
  [ ⟨0xFFFFFFFF#32, 0x00000000#32⟩, ⟨0xFF0000FF#32, 0x10000000#32⟩,
    ⟨0xFF000FFF#32, 0x11000000#32⟩, ⟨0xFF000FFF#32, 0x12000000#32⟩,
    ⟨0xFF0000FF#32, 0x13000000#32⟩, ⟨0xFF0000FF#32, 0x20000000#32⟩,
    ⟨0xFF00000F#32, 0x30000000#32⟩, ⟨0xFF000FFF#32, 0x31000000#32⟩,
    ⟨0xFF000FFF#32, 0x32000000#32⟩, ⟨0xFF000FFF#32, 0x40000000#32⟩,
    ⟨0xFF00FF00#32, 0x41000000#32⟩ ]

/-- The command the decoder reads from a word given by its low `nbits` bits, the bits above them
zero. Every AACORE command is one 32-bit word (R97), and no byte order is visible (R66). -/
def decodeTableWord (nbits w : Nat) : Option Instr :=
  match decode (BitVec.ofNat 32 (w % 2 ^ nbits)) with
  | .ok i => some i
  | .reject _ => none

end Sys2Proof
end

