-- ==== Sys2Proof/Machine/Operands.lean ====
section
/-! DEFINITION. Operand forms: which registers a command reads (R91, R92, R94), the immediate (R93),
and the 32-bit words of a W-bit register (R67). -/

namespace Sys2Proof.Machine

/-- The registers that the source fields RS1 to RS5 of a command name; none where its format has no
such field (R91 has at most three). -/
structure Sources where
  rs1 : Option Reg
  rs2 : Option Reg
  rs3 : Option Reg
  rs4 : Option Reg
  rs5 : Option Reg
  deriving DecidableEq, Repr

/-- Format N: no source. -/
def Sources.zero : Sources := ⟨none, none, none, none, none⟩
/-- Format RI: RS1. -/
def Sources.one (r1 : Reg) : Sources := ⟨some r1, none, none, none, none⟩
/-- Formats R3 and R5: RS1 and RS2. -/
def Sources.two (r1 r2 : Reg) : Sources := ⟨some r1, some r2, none, none, none⟩
/-- Format R4: RS1, RS2 and RS3. -/
def Sources.three (r1 r2 r3 : Reg) : Sources := ⟨some r1, some r2, some r3, none, none⟩

/-- The source fields of a command, by the field-use column of R94. -/
def sources : Instr → Sources
  | .nop => .zero
  | .montmul _ ra rb rn => .three ra rb rn
  | .tomont _ ra rn => .two ra rn
  | .frommont _ ra rn => .two ra rn
  | .modmul _ ra rb rn => .three ra rb rn
  | .modexp _ ra re rn => .three ra re rn
  | .egcd _ _ _ ra rb => .two ra rb
  | .gcd _ ra rb => .two ra rb
  | .modinv _ ra rn => .two ra rn
  | .mrround _ rn ra => .two rn ra
  | .mrtest _ rn _ => .one rn

/-- The round count that IMM8 selects: 0 selects DEFAULT_ROUNDS (R93). -/
def roundCount (imm8 : BitVec 8) : Nat :=
  if imm8 = 0 then defaultRounds else imm8.toNat

/-- Word `j` of a register value: bits `[32*j+31 : 32*j]` (R67). -/
def wordOf {W : Nat} (v : BitVec W) (j : Nat) : Word := v.extractLsb' (32 * j) 32

/-- The register value with word `j` replaced and every other word kept (R63). -/
def withWord {W : Nat} (v : BitVec W) (j : Nat) (d : Word) : BitVec W :=
  (v &&& ~~~(BitVec.setWidth W (BitVec.allOnes 32) <<< (32 * j)))
    ||| (BitVec.setWidth W d <<< (32 * j))

end Sys2Proof.Machine
end

