-- ==== Sys2Proof/Machine/Ops.lean ====
section
/-! DEFINITION. The shared operations of the command lifecycle (spec/40_command_control.md): the
register file, acceptance, raising an error, commit and completion, abort and soft reset. -/

namespace Sys2Proof.Machine

variable {W : Nat}

/-- Reading `R[i]` (R11, R20). No register is hardwired. -/
def Aacore.reg (m : Aacore W) (r : Reg) : BitVec W := m.regs.get r

/-- `R[i] <- v` (R11, R20). -/
def Aacore.setReg (m : Aacore W) (r : Reg) (v : BitVec W) : Aacore W :=
  { m with regs := m.regs.set r.val v r.isLt }

/-- The same state with AACORE's part replaced. -/
def State.setCore (s : State) (m : Aacore s.cfg.W) : State := { s with core := m }

/-- `raise Error(code)` (R211): the command ends, ECMD takes the command word, no register is
written, and the hidden state is discarded with the phase. -/
def Aacore.raise (m : Aacore W) (code : ErrorCode) : Aacore W :=
  { m with
    phase := .idle
    rngPending := false
    rngLo := 0
    rngHi := 0
    done := false
    err := true
    ecode := some code
    ecmd := m.lastcmd }

/-- A CMD or register-file write that arrives while BUSY is dropped and sets OVR (R63, R121). -/
def Aacore.overrun (m : Aacore W) : Aacore W := { m with ovr := true }

/-- Steps 2 and 3 of `accept` (R120): LASTCMD takes the word; DONE, ERR and ECODE are cleared; ECMD
and OVR are kept. -/
def Aacore.latchCommand (m : Aacore W) (w : Word) : Aacore W :=
  { m with lastcmd := w, done := false, err := false, ecode := none }

/-- Step 5 of `accept`: the values of the registers the source fields name (R122). -/
def Aacore.capture (m : Aacore W) (src : Sources) : Latches W :=
  { s1 := src.rs1.map m.reg
    s2 := src.rs2.map m.reg
    s3 := src.rs3.map m.reg
    s4 := src.rs4.map m.reg
    s5 := src.rs5.map m.reg }

/-- Steps 2 to 7 of `accept` for the command `i` (R120). `check` is the first failed check in the
order ILLEGAL, DOMAIN, RANGE (R214), or none for OK; `mr` is MRTEST's round state at its start. -/
def Aacore.accept (m : Aacore W) (i : Instr) (check : Option ErrorCode) (mr : Option MrState) :
    Aacore W :=
  match check with
  | some code => (m.latchCommand (encode i)).raise code
  | none =>
    { m.latchCommand (encode i) with
      phase := .exec { cur := encode i, latches := m.capture (sources i), mr := mr } }

/-- What `exec_OP` answers: the destinations with their values, or an error (R124). -/
inductive CommandResult (W : Nat) where
  | ok (writes : List (Reg × BitVec W))
  | err (code : ErrorCode)
  deriving DecidableEq, Repr

/-- `commit`: all the destinations, in one step of the model (R11, R124). -/
def Aacore.commit (m : Aacore W) (writes : List (Reg × BitVec W)) : Aacore W :=
  writes.foldl (fun m dv => m.setReg dv.1 dv.2) m

/-- `complete()` with the command's result (R124). -/
def Aacore.complete (m : Aacore W) (r : CommandResult W) : Aacore W :=
  match r with
  | .err code => m.raise code
  | .ok writes => { m.commit writes with phase := .idle, done := true }

/-- The life of a command other than MRTEST, as `exec` calls it. While IDLE it is the acceptance of
the command (R120); while EXEC it is the engine event of the command in the slot, its completion
(R124), which is not enabled while a randomness request is outstanding. -/
def State.command (s : State) (i : Instr) (check : Option ErrorCode)
    (result : Latches s.cfg.W → Option (CommandResult s.cfg.W)) : Host.Outcome State Fault Refusal :=
  match s.core.phase with
  | .idle => .next (s.setCore (s.core.accept i check none))
  | .exec job =>
    if s.core.rngPending then .next s
    else
      match result job.latches with
      | some r => .next (s.setCore (s.core.complete r))
      | none => .fault .meaninglessEngineState

/-- `abort()` (R221): ABORTED for the command in execution, and no effect while IDLE. -/
def Aacore.abort (m : Aacore W) : Aacore W :=
  match m.phase with
  | .idle => m
  | .exec _ => m.raise .aborted

/-- `softReset()`: the same effect on every state element as a cycle of hardware reset (R242). -/
def Aacore.softReset (_ : Aacore W) : Aacore W := Aacore.reset W

/-- A write of `v` to CTRL (R37). With SRST set, the rest of the write has no effect. -/
def Aacore.writeCtrl (m : Aacore W) (v : Word) : Aacore W :=
  if v[2] then m.softReset
  else
    let m1 := { m with irqen := v[0] }
    if v[1] then m1.abort else m1

end Sys2Proof.Machine
end

