-- ==== Sys2Proof/Machine/Bus.lean ====
section
/-! DEFINITION. The register space (spec/20_memory.md): the address map, what a read returns, and the
writes other than to CMD. AACORE has no memory beyond this space (R61, R76). -/

namespace Sys2Proof.Machine

variable {W : Nat}

/-- What a mapped address names (R68, R69). -/
inductive Target where
  | id | param | cmd | status | ctrl | ecmd
  /-- word `j` of `R[i]` -/
  | window (i : Reg) (j : Nat)
  deriving DecidableEq, Repr

/-- The address map of R68 and R69 for a configuration with K words a register. `none` is a
misaligned or unmapped address, which is a bus error (R65, R70). -/
def decodeAddr (K : Nat) (a : Addr) : Option Target :=
  if a.extractLsb' 0 2 ≠ 0 then none
  else if a = 0x0000#16 then some .id
  else if a = 0x0004#16 then some .param
  else if a = 0x0008#16 then some .cmd
  else if a = 0x000C#16 then some .status
  else if a = 0x0010#16 then some .ctrl
  else if a = 0x0014#16 then some .ecmd
  else if a.extractLsb' 12 4 = 1 then
    let j := (a.extractLsb' 2 6).toNat
    if j < K then some (.window (a.extractLsb' 8 4).toFin j) else none
  else none

/-- `readValue` (R62, R68). -/
def State.readValue (s : State) : Target → Word
  | .id => idValue
  | .param => paramWord s.cfg
  | .cmd => s.core.lastcmd
  | .status => s.core.statusWord
  | .ctrl => s.core.ctrlWord
  | .ecmd => s.core.ecmd
  | .window i j => wordOf (s.core.reg i) j

/-- A host read (R62). It changes nothing but the bus outputs. -/
def State.hostRead (s : State) (a : Addr) : State :=
  { s with
    response := some (match decodeAddr s.cfg.K a with
      | none => .read true 0
      | some t => .read false (s.readValue t)) }

/-- A write to word `j` of `R[i]` (R63): dropped with OVR while EXEC. -/
def Aacore.writeWindow (m : Aacore W) (i : Reg) (j : Nat) (v : Word) : Aacore W :=
  match m.phase with
  | .exec _ => m.overrun
  | .idle => m.setReg i (withWord (m.reg i) j v)

/-- A write to a mapped address other than CMD (R63). ID, PARAM and ECMD ignore writes (R30). The
CMD case, which `hostWrite` handles before this one, is left unchanged here. -/
def Aacore.writeTarget (m : Aacore W) (t : Target) (v : Word) : Aacore W :=
  match t with
  | .window i j => m.writeWindow i j v
  | .status => m.writeStatus v
  | .ctrl => m.writeCtrl v
  | .id => m
  | .param => m
  | .ecmd => m
  | .cmd => m

end Sys2Proof.Machine
end

