-- ==== Sys2Proof/Machine/CommandControl.lean ====
section
/-! DEFINITION. The command that belongs to no unit (spec/40_command_control.md). -/

namespace Sys2Proof.Machine

/-- NOP (R127): no operands, no check, no destinations. -/
def execNop (s : State) : Host.Outcome State Fault Refusal :=
  s.command .nop none (fun _ => some (.ok []))

end Sys2Proof.Machine
end

