-- ==== Sys2Proof/Machine/Arith.lean ====
section
/-! DEFINITION. The arithmetic of the command rules, on natural numbers and integers without bound
(R10). Recursion is structural on fuel, so that the kernel can evaluate it (DEDUCED, log entry 10);
the fuel each function starts with is enough, as the laws in `Sys2Proof/Laws/Arith.lean` say. -/

namespace Sys2Proof.Machine

/-- What `egcd` returns: the divisor and the two coefficients (R170). -/
structure Bezout where
  g : Nat
  x : Int
  y : Int
  deriving DecidableEq, Repr

/-- R170's recursion, with fuel. The first argument strictly decreases, so fuel `a` is enough. -/
def egcdFuel : Nat → Nat → Nat → Bezout
  | 0, _, b => ⟨b, 0, 1⟩
  | fuel + 1, a, b =>
    if a = 0 then ⟨b, 0, 1⟩
    else
      let r := egcdFuel fuel (b % a) a
      ⟨r.g, r.y - (b / a : Nat) * r.x, r.x⟩

/-- `egcd(a, b)` of R170. -/
def egcd (a b : Nat) : Bezout := egcdFuel a a b

/-- `inv(a, n)` of R10: the unique `x` in `[0, n)` with `(a*x) mod n = 1 mod n`, for
`gcd(a, n) = 1`. Computed from the coefficient of `a mod n`. -/
def inv (a n : Nat) : Nat := ((egcd (a % n) n).x % (n : Int)).toNat

/-- The Montgomery radix `R = 2^W` (R7, R140). -/
def radix (W : Nat) : Nat := 2 ^ W

/-- `Rinv_n = inv(R mod n, n)`, which is 0 for `n = 1` (R140). -/
def radixInv (W n : Nat) : Nat := inv (radix W % n) n

/-- The Montgomery product `mont(a, b, n)` of R140. -/
def mont (W a b n : Nat) : Nat := a * b * radixInv W n % n

/-- The Montgomery form of `a` modulo `n` (R140). -/
def toMont (W a n : Nat) : Nat := a * radix W % n

/-- Out of Montgomery form: `(a * Rinv_n) mod n` (R143). -/
def fromMont (W a n : Nat) : Nat := a * radixInv W n % n

/-- The number of bits of `e`; `bitlen(0) = 0` (R161). -/
def bitlen (e : Nat) : Nat := if e = 0 then 0 else e.log2 + 1

/-- R161's loop over the bits `i-1` down to 0 of `e`, from accumulator `r`. -/
def powLoop (a e n : Nat) : Nat → Nat → Nat
  | 0, r => r
  | i + 1, r =>
    let sq := r * r % n
    powLoop a e n i (if e.testBit i then sq * (a % n) % n else sq)

/-- `a^e mod n` for `n > 1` (R160), by the square-and-multiply of R161. -/
def powMod (a e n : Nat) : Nat := powLoop a e n (bitlen e) 1

/-- `(k, d)` with `m = 2^k * d` and `d` odd, for `m >= 1` and fuel of at least `bitlen m` (R190). -/
def splitTwos : Nat → Nat → Nat × Nat
  | 0, m => (0, m)
  | fuel + 1, m =>
    if m % 2 = 0 then
      let r := splitTwos fuel (m / 2)
      (r.1 + 1, r.2)
    else (0, m)

/-- The squaring loop of R190, with the number of squarings left and `x`: true means the round
answers 1. -/
def squareLoop (n : Nat) : Nat → Nat → Bool
  | 0, _ => false
  | left + 1, x =>
    let y := x * x % n
    if y = n - 1 then true
    else if y = 1 then false
    else squareLoop n left y

/-- `mr_round(n, a)` of R190, for odd `n > 2` and `1 <= a < n`: true is 1 (probably prime), false
is 0 (composite). -/
def mrRound (n a : Nat) : Bool :=
  let kd := splitTwos (bitlen (n - 1)) (n - 1)
  let x := powMod a kd.2 n
  if x = 1 ∨ x = n - 1 then true else squareLoop n (kd.1 - 1) x

/-- `tcW(z)`: the W-bit two's-complement word of an integer (R9). -/
def tcW (W : Nat) (z : Int) : BitVec W := BitVec.ofInt W z

/-- `-2^(W-1) <= z < 2^(W-1)`: the integers that `tcW` encodes (R9, R171). -/
def fitsSigned (W : Nat) (z : Int) : Bool :=
  decide (-(2 ^ (W - 1) : Int) ≤ z) && decide (z < (2 ^ (W - 1) : Int))

end Sys2Proof.Machine
end

