-- ==== Sys2Proof/Machine/GcdUnit.lean ====
section
/-! DEFINITION. The euclidean_gcd_unit: EGCD, GCD, MODINV (spec/43_gcd.md). -/

namespace Sys2Proof.Machine

variable {W : Nat}

/-- EGCD's legality (R95 condition 3, R171): two equal destinations are ILLEGAL. -/
def egcdCheck (rg rx ry : Reg) : Option ErrorCode :=
  if rg = rx ∨ rg = ry ∨ rx = ry then some .illegal else none

/-- exec_EGCD (R171): the divisor and both coefficients, or OVERFLOW where one does not fit. -/
def egcdResult (rg rx ry : Reg) (a b : BitVec W) : CommandResult W :=
  let r := egcd a.toNat b.toNat
  if fitsSigned W r.x && fitsSigned W r.y then
    .ok [(rg, BitVec.ofNat W r.g), (rx, tcW W r.x), (ry, tcW W r.y)]
  else .err .overflow

/-- EGCD `rg, rx, ry, ra, rb`: the extended Euclidean algorithm (R171). -/
def execEgcd (rg rx ry ra rb : Reg) (s : State) : Host.Outcome State Fault Refusal :=
  s.command (.egcd rg rx ry ra rb)
    (egcdCheck rg rx ry)
    (fun S => do
      let a ← S.s1
      let b ← S.s2
      some (egcdResult rg rx ry a b))

/-- GCD `rd, ra, rb`: the greatest common divisor (R172). -/
def execGcd (rd ra rb : Reg) (s : State) : Host.Outcome State Fault Refusal :=
  s.command (.gcd rd ra rb)
    none
    (fun S => do
      let a ← S.s1
      let b ← S.s2
      some (.ok [(rd, BitVec.ofNat _ (egcd a.toNat b.toNat).g)]))

/-- check_MODINV (R173). -/
def modinvCheck (n : Nat) : Option ErrorCode :=
  if n = 0 then some .domain else none

/-- exec_MODINV (R173). -/
def modinvResult (rd : Reg) (a n : BitVec W) : CommandResult W :=
  if (egcd a.toNat n.toNat).g ≠ 1 then .err .noinv
  else if n.toNat = 1 then .ok [(rd, 0)]
  else .ok [(rd, BitVec.ofNat W (inv a.toNat n.toNat))]

/-- MODINV `rd, ra, rn`: the modular inverse (R173). -/
def execModinv (rd ra rn : Reg) (s : State) : Host.Outcome State Fault Refusal :=
  s.command (.modinv rd ra rn)
    (modinvCheck (s.core.reg rn).toNat)
    (fun S => do
      let a ← S.s1
      let n ← S.s2
      some (modinvResult rd a n))

end Sys2Proof.Machine
end

