-- ==== Sys2Proof/Machine/MillerRabin.lean ====
section
/-! DEFINITION. The miller_rabin_test_engine: MRROUND, MRTEST, and AACORE's side of the randomness
port (spec/44_miller_rabin.md). -/

namespace Sys2Proof.Machine

variable {W : Nat}

/-- check_MRROUND (R191). -/
def mrroundCheck (n a : Nat) : Option ErrorCode :=
  if n % 2 = 0 ∨ n < 3 then some .domain
  else if a = 0 ∨ a ≥ n then some .range
  else none

/-- MRROUND `rd, rn, ra`: one round with an explicit witness (R191). -/
def execMrround (rd rn ra : Reg) (s : State) : Host.Outcome State Fault Refusal :=
  s.command (.mrround rd rn ra)
    (mrroundCheck (s.core.reg rn).toNat (s.core.reg ra).toNat)
    (fun S => do
      let n ← S.s1
      let a ← S.s2
      some (.ok [(rd, BitVec.ofNat _ (mrRound n.toNat a.toNat).toNat)]))

/-- `mrtest_start()` (R192). -/
def mrtestStart (n : Nat) (imm8 : BitVec 8) : MrState :=
  { roundIdx := 0
    rounds := roundCount imm8
    verdict :=
      if n < 2 then .composite
      else if n = 2 then .probablePrime
      else if n % 2 = 0 then .composite
      else .undecided }

/-- Step 3 of a round: the answer `v` is judged against candidate `n` (R192). -/
def MrState.evalRound (mr : MrState) (n v : Nat) : MrState :=
  if ¬(1 ≤ v ∧ v < n) then { mr with verdict := .rngError }
  else if mrRound n v = false then { mr with verdict := .composite }
  else
    { mr with
      roundIdx := mr.roundIdx + 1
      verdict := if mr.roundIdx + 1 = mr.rounds then .probablePrime else mr.verdict }

/-- The request event (R197). -/
def Aacore.request (m : Aacore W) (n : BitVec W) : Aacore W :=
  { m with rngPending := true, rngLo := 1, rngHi := n }

/-- An outstanding request is over: `rng_req`, `rng_lo` and `rng_hi` are 0 (R196). -/
def Aacore.withdraw (m : Aacore W) : Aacore W :=
  { m with rngPending := false, rngLo := 0, rngHi := 0 }

/-- The environment's answer (R196). With no request outstanding it is ignored and nothing is kept
of it; otherwise the request is over and the round is evaluated. -/
def State.answer (s : State) (v : BitVec s.cfg.W) : Host.Outcome State Fault Refusal :=
  if s.core.rngPending then
    match s.core.phase with
    | .idle => .fault .meaninglessEngineState
    | .exec job =>
      match job.mr, job.latches.s1 with
      | some mr, some n =>
        .next (s.setCore
          { s.core.withdraw with
            phase := .exec { job with mr := some (mr.evalRound n.toNat v.toNat) } })
      | _, _ => .fault .meaninglessEngineState
  else .next s

/-- The result of a decided MRTEST (R192): the verdict 0 or 1, or RNG. -/
def mrtestResult (W : Nat) (rd : Reg) : Verdict → Option (CommandResult W)
  | .undecided => none
  | .composite => some (.ok [(rd, BitVec.ofNat W 0)])
  | .probablePrime => some (.ok [(rd, BitVec.ofNat W 1)])
  | .rngError => some (.err .rng)

/-- MRTEST's engine event while EXEC: nothing while a request is outstanding, the next request
while the verdict is undecided (R197), and otherwise the completion (R124, R192). -/
def State.mrtestEvent (s : State) (rd : Reg) (job : Job s.cfg.W) :
    Host.Outcome State Fault Refusal :=
  if s.core.rngPending then .next s
  else
    match job.mr, job.latches.s1 with
    | some mr, some n =>
      match mrtestResult s.cfg.W rd mr.verdict with
      | none => .next (s.setCore (s.core.request n))
      | some r => .next (s.setCore (s.core.complete r))
    | _, _ => .fault .meaninglessEngineState

/-- MRTEST `rd, rn, #rounds`: the multi-round check with witnesses from the randomness port (R192).
It has no acceptance check: every n is accepted. -/
def execMrtest (rd rn : Reg) (imm8 : BitVec 8) (s : State) : Host.Outcome State Fault Refusal :=
  match s.core.phase with
  | .idle =>
    .next (s.setCore (s.core.accept (.mrtest rd rn imm8) none
      (some (mrtestStart (s.core.reg rn).toNat imm8))))
  | .exec job => s.mrtestEvent rd job

end Sys2Proof.Machine
end

