-- ==== Sys2Proof/Machine/Modexp.lean ====
section
/-! DEFINITION. The binary_modexp_engine: MODEXP (spec/42_modexp.md). -/

namespace Sys2Proof.Machine

/-- check_MODEXP (R160, R162): the modulus is above 1. -/
def modexpCheck (n : Nat) : Option ErrorCode :=
  if n ≤ 1 then some .domain else none

/-- MODEXP `rd, ra, re, rn`: `a^e mod n` (R160). -/
def execModexp (rd ra re rn : Reg) (s : State) : Host.Outcome State Fault Refusal :=
  s.command (.modexp rd ra re rn)
    (modexpCheck (s.core.reg rn).toNat)
    (fun S => do
      let a ← S.s1
      let e ← S.s2
      let n ← S.s3
      some (.ok [(rd, BitVec.ofNat _ (powMod a.toNat e.toNat n.toNat))]))

end Sys2Proof.Machine
end

