-- ==== Sys2Proof/Machine/Montgomery.lean ====
section
/-! DEFINITION. The montgomery_multiplier: MONTMUL, TOMONT, FROMMONT, MODMUL
(spec/41_montgomery.md). -/

namespace Sys2Proof.Machine

/-- check_MONTMUL (R141). -/
def montmulCheck (a b n : Nat) : Option ErrorCode :=
  if n % 2 = 0 then some .domain
  else if a ≥ n ∨ b ≥ n then some .range
  else none

/-- MONTMUL `rd, ra, rb, rn`: the Montgomery product (R141). -/
def execMontmul (rd ra rb rn : Reg) (s : State) : Host.Outcome State Fault Refusal :=
  s.command (.montmul rd ra rb rn)
    (montmulCheck (s.core.reg ra).toNat (s.core.reg rb).toNat (s.core.reg rn).toNat)
    (fun S => do
      let a ← S.s1
      let b ← S.s2
      let n ← S.s3
      some (.ok [(rd, BitVec.ofNat _ (mont s.cfg.W a.toNat b.toNat n.toNat))]))

/-- check_TOMONT and check_FROMMONT (R142, R143). -/
def montFormCheck (a n : Nat) : Option ErrorCode :=
  if n % 2 = 0 then some .domain
  else if a ≥ n then some .range
  else none

/-- TOMONT `rd, ra, rn`: into Montgomery form (R142). -/
def execTomont (rd ra rn : Reg) (s : State) : Host.Outcome State Fault Refusal :=
  s.command (.tomont rd ra rn)
    (montFormCheck (s.core.reg ra).toNat (s.core.reg rn).toNat)
    (fun S => do
      let a ← S.s1
      let n ← S.s2
      some (.ok [(rd, BitVec.ofNat _ (toMont s.cfg.W a.toNat n.toNat))]))

/-- FROMMONT `rd, ra, rn`: out of Montgomery form (R143). -/
def execFrommont (rd ra rn : Reg) (s : State) : Host.Outcome State Fault Refusal :=
  s.command (.frommont rd ra rn)
    (montFormCheck (s.core.reg ra).toNat (s.core.reg rn).toNat)
    (fun S => do
      let a ← S.s1
      let n ← S.s2
      some (.ok [(rd, BitVec.ofNat _ (fromMont s.cfg.W a.toNat n.toNat))]))

/-- check_MODMUL (R144): the modulus may be anything but 0. -/
def modmulCheck (n : Nat) : Option ErrorCode :=
  if n = 0 then some .domain else none

/-- MODMUL `rd, ra, rb, rn`: the ordinary modular product (R144). -/
def execModmul (rd ra rb rn : Reg) (s : State) : Host.Outcome State Fault Refusal :=
  s.command (.modmul rd ra rb rn)
    (modmulCheck (s.core.reg rn).toNat)
    (fun S => do
      let a ← S.s1
      let b ← S.s2
      let n ← S.s3
      some (.ok [(rd, BitVec.ofNat _ (a.toNat * b.toNat % n.toNat))]))

end Sys2Proof.Machine
end

