-- ==== Sys2Proof/Machine/Dispatch.lean ====
section
/-! DEFINITION. One arm for each command. While the engine is IDLE, `exec i s` is the acceptance of
the command `i`; while it is EXEC, `exec i s` is the engine event of `i`, the command in the slot. -/

namespace Sys2Proof.Machine

def exec (i : Instr) (s : State) : Host.Outcome State Fault Refusal :=
  match i with
  | .nop => Sys2Proof.Machine.execNop s
  | .montmul rd ra rb rn => Sys2Proof.Machine.execMontmul rd ra rb rn s
  | .tomont rd ra rn => Sys2Proof.Machine.execTomont rd ra rn s
  | .frommont rd ra rn => Sys2Proof.Machine.execFrommont rd ra rn s
  | .modmul rd ra rb rn => Sys2Proof.Machine.execModmul rd ra rb rn s
  | .modexp rd ra re rn => Sys2Proof.Machine.execModexp rd ra re rn s
  | .egcd rg rx ry ra rb => Sys2Proof.Machine.execEgcd rg rx ry ra rb s
  | .gcd rd ra rb => Sys2Proof.Machine.execGcd rd ra rb s
  | .modinv rd ra rn => Sys2Proof.Machine.execModinv rd ra rn s
  | .mrround rd rn ra => Sys2Proof.Machine.execMrround rd rn ra s
  | .mrtest rd rn imm8 => Sys2Proof.Machine.execMrtest rd rn imm8 s

end Sys2Proof.Machine
end

