-- ==== Sys2Proof/Machine/Events.lean ====
section
/-! DEFINITION. The events of the model (R12, R71): a host transaction, the environment's answer, an
engine event, a quiet cycle, and reset; and which of them a step takes. -/

namespace Sys2Proof.Machine

/-- `accept(w)` (R120): dropped while EXEC (R121); otherwise the command the word stands for, or
ILLEGAL where it stands for none (R95, R96). Condition 3 of R95 is checked in EGCD's meaning (log
entry 6). -/
def State.issue (s : State) (w : Word) : Host.Outcome State Fault Refusal :=
  if s.core.busy then .next (s.setCore s.core.overrun)
  else
    match decode w with
    | .ok i => exec i s
    | .reject _ => .next (s.setCore ((s.core.latchCommand w).raise .illegal))

/-- A host write (R63). The bus response is in place before the write takes effect, so a CMD write
is `issue` on a state that differs from the result in nothing else. -/
def State.hostWrite (s : State) (a : Addr) (v : Word) : Host.Outcome State Fault Refusal :=
  match decodeAddr s.cfg.K a with
  | none => .next { s with response := some (.write true) }
  | some .cmd => State.issue { s with response := some (.write false) } v
  | some t => .next { s with response := some (.write false), core := s.core.writeTarget t v }

/-- A host transaction (R62, R63). -/
def State.host (s : State) : Transaction → Host.Outcome State Fault Refusal
  | .read a => .next (s.hostRead a)
  | .write a v => s.hostWrite a v

/-- The engine event (R124, R197): the command in the slot takes its next event. While IDLE the
engine has none. -/
def State.engineEvent (s : State) : Host.Outcome State Fault Refusal :=
  match s.core.phase with
  | .idle => .next s
  | .exec job =>
    match decode job.cur with
    | .ok i => exec i s
    | .reject _ => .fault .meaninglessEngineState

/-- A cycle in which `rst` is sampled at 1: every piece of state takes its reset value, and nothing
else happens (R240). -/
def State.resetCycle (s : State) : State :=
  { s with core := Aacore.reset s.cfg.W, rst := true }

/-- One event. While `rst` stays at 1, host transactions, answers and the engine have no effect
(R64, R240; DESIGN CHOICE, log entry 7). -/
def State.event (s : State) (e : Event s.cfg.W) : Host.Outcome State Fault Refusal :=
  match e with
  | .rst true => .next s.resetCycle
  | .rst false => .next { s with rst := false }
  | .host t => if s.rst then .next s.resetCycle else s.host t
  | .answer v => if s.rst then .next s.resetCycle else s.answer v
  | .engine => if s.rst then .next s.resetCycle else s.engineEvent
  | .quiet => if s.rst then .next s.resetCycle else .next s

/-- The event that the next step takes: the oldest pending one, and with none pending the engine's
own, so that a command in execution goes on by itself (R251; DESIGN CHOICE, log entry 2). -/
def State.nextEvent (s : State) : Event s.cfg.W := s.inputs.head?.getD .engine

/-- The state in which the next event happens: the event is taken from the pending ones, and the
bus shows no response yet. -/
def State.pop (s : State) : State := { s with inputs := s.inputs.tail, response := none }

/-- One step of the machine: one event. -/
def State.advance (s : State) : Host.Outcome State Fault Refusal := s.pop.event s.nextEvent

end Sys2Proof.Machine
end

