-- ==== Sys2Proof/Machine/Step.lean ====
section
/-! DEFINITION. One step, and how an instruction is placed where the next step takes it. -/

namespace Sys2Proof.Machine

/-- One step of the machine (R12). -/
def step (s : State) : Host.Outcome State Fault Refusal := s.advance

/-- The state in which the next step takes the command word `w`: the host's write of it to CMD is
the oldest pending event, `rst` is released, and the command slot is free (DESIGN CHOICE, log
entry 5). AACORE fetches nothing (R22, R75): a command comes from the host's CMD write alone. -/
def State.withFetchWord (s : State) (nbits w : Nat) : State :=
  { s with
    core := { s.core with phase := .idle, rngPending := false, rngLo := 0, rngHi := 0 }
    rst := false
    inputs := .host (.write 0x0008#16 (BitVec.ofNat 32 (w % 2 ^ nbits))) :: s.inputs }

end Sys2Proof.Machine
end

