-- ==== Sys2Proof/Machine/Assembler.lean ====
section
/-! DEFINITION. The assembler's syntax (R98), its register names (R21), and the pseudo-instructions
(R99). The machine does not use this file: it says which command word a line of assembly stands
for. -/

namespace Sys2Proof.Machine

/-- An operand of a line of assembly: a register or an immediate (R98). -/
inductive AsmOperand where
  | reg (r : Reg)
  | imm (n : Nat)
  deriving DecidableEq, Repr

/-- White space inside a line. -/
def isBlank (c : Char) : Bool := c == ' ' || c == '\t'

/-- Mnemonics and register names are case-insensitive (R98). The model folds the whole line, and so
the `0x` prefix and the hexadecimal digits of an immediate too (DESIGN CHOICE, log entry 14). -/
def upperCase (c : Char) : Char :=
  if 'a'.toNat ≤ c.toNat ∧ c.toNat ≤ 'z'.toNat then Char.ofNat (c.toNat - 32) else c

/-- A text without the white space at its two ends. -/
def trimBlanks (l : List Char) : List Char :=
  ((l.dropWhile isBlank).reverse.dropWhile isBlank).reverse

/-- The parts of a text between its commas. -/
def splitCommas : List Char → List (List Char)
  | [] => [[]]
  | c :: cs =>
    if c = ',' then [] :: splitCommas cs
    else
      match splitCommas cs with
      | [] => [[c]]
      | part :: parts => (c :: part) :: parts

/-- The value of a digit in `base`, of upper-case letters. -/
def digitValue (base : Nat) (c : Char) : Option Nat :=
  let v :=
    if '0'.toNat ≤ c.toNat ∧ c.toNat ≤ '9'.toNat then some (c.toNat - '0'.toNat)
    else if 'A'.toNat ≤ c.toNat ∧ c.toNat ≤ 'F'.toNat then some (c.toNat - 'A'.toNat + 10)
    else none
  match v with
  | some d => if d < base then some d else none
  | none => none

/-- The number that digits spell after the value `acc`. -/
def digitsFrom (base : Nat) : Nat → List Char → Option Nat
  | acc, [] => some acc
  | acc, c :: cs =>
    match digitValue base c with
    | some d => digitsFrom base (acc * base + d) cs
    | none => none

/-- The number that at least one digit spells. -/
def digitsValue (base : Nat) (ds : List Char) : Option Nat :=
  if ds.isEmpty then none else digitsFrom base 0 ds

/-- A decimal or `0x` hexadecimal number, in upper case (R98). On a folded line this takes `0X` as
`0x`, and hexadecimal digits of either case (DESIGN CHOICE, log entry 14). -/
def parseNumber : List Char → Option Nat
  | '0' :: 'X' :: ds => digitsValue 16 ds
  | ds => digitsValue 10 ds

/-- The decimal spelling of a register index (R98). -/
def regDigits (r : Reg) : List Char :=
  if r.val < 10 then [Char.ofNat ('0'.toNat + r.val)]
  else ['1', Char.ofNat ('0'.toNat + (r.val - 10))]

/-- One operand in upper case: `R0` to `R15`, or an immediate, optionally preceded by `#` (R98). -/
def parseOperand (l : List Char) : Option AsmOperand :=
  match l with
  | 'R' :: ds => ((List.finRange nreg).find? (fun r => regDigits r == ds)).map .reg
  | '#' :: ds => (parseNumber ds).map .imm
  | ds => (parseNumber ds).map .imm

/-- The operands of a line; no text at all is no operand. -/
def parseOperands (l : List Char) : Option (List AsmOperand) :=
  if (trimBlanks l).isEmpty then some []
  else (splitCommas l).mapM (fun part => parseOperand (trimBlanks part))

/-- A mnemonic with its operands, as R98 orders them, and the pseudo-instructions of R99. An
immediate outside 0 to 255 is an assembly error (R98). -/
def assembleParts : String → List AsmOperand → Option Instr
  | "NOP", [] => some .nop
  | "MONTMUL", [.reg rd, .reg ra, .reg rb, .reg rn] => some (.montmul rd ra rb rn)
  | "TOMONT", [.reg rd, .reg ra, .reg rn] => some (.tomont rd ra rn)
  | "FROMMONT", [.reg rd, .reg ra, .reg rn] => some (.frommont rd ra rn)
  | "MODMUL", [.reg rd, .reg ra, .reg rb, .reg rn] => some (.modmul rd ra rb rn)
  | "MODEXP", [.reg rd, .reg ra, .reg re, .reg rn] => some (.modexp rd ra re rn)
  | "EGCD", [.reg rg, .reg rx, .reg ry, .reg ra, .reg rb] => some (.egcd rg rx ry ra rb)
  | "GCD", [.reg rd, .reg ra, .reg rb] => some (.gcd rd ra rb)
  | "MODINV", [.reg rd, .reg ra, .reg rn] => some (.modinv rd ra rn)
  | "MRROUND", [.reg rd, .reg rn, .reg ra] => some (.mrround rd rn ra)
  | "MRTEST", [.reg rd, .reg rn, .imm n] =>
    if n ≤ 255 then some (.mrtest rd rn (BitVec.ofNat 8 n)) else none
  | "MODSQR", [.reg rd, .reg ra, .reg rn] => some (.modmul rd ra ra rn)
  | "ENCRYPT", [.reg rc, .reg rm, .reg re, .reg rn] => some (.modexp rc rm re rn)
  | "DECRYPT", [.reg rm, .reg rc, .reg rd, .reg rn] => some (.modexp rm rc rd rn)
  | "MRTEST", [.reg rd, .reg rn] => some (.mrtest rd rn 0#8)
  | "MONTSQR", [.reg rd, .reg ra, .reg rn] => some (.montmul rd ra ra rn)
  | _, _ => none

/-- One line of assembly, up to a comment that starts with `;` (R98). `none` is an assembly error,
or a line with no command. Folding the whole line to upper case, and the white space taken, are the
model's choice (DESIGN CHOICE, log entry 14). -/
def assemble (line : List Char) : Option Instr :=
  let text := trimBlanks ((line.takeWhile (· != ';')).map upperCase)
  let mnemonic := text.takeWhile (fun c => !isBlank c)
  match parseOperands (text.dropWhile (fun c => !isBlank c)) with
  | some ops => assembleParts (String.ofList mnemonic) ops
  | none => none

end Sys2Proof.Machine
end

