-- ==== Sys2Proof/Machine/HostProgram.lean ====
section
/-! DEFINITION. The host-program notation of R100: the events that each host line stands for. The
machine does not use this file. `wait` is the host's own control flow: each of its polls is one
`hostChk`. -/

namespace Sys2Proof.Machine

/-- The address of word `j` of `R[i]`: `0x1000 + 0x100*i + 4*j` (R69, R100). -/
def windowAddr (i : Reg) (j : Nat) : Addr := BitVec.ofNat 16 (0x1000 + 0x100 * i.val + 4 * j)

/-- `ld rI, value`: the K words of the value, word 0 first (R67, R100). -/
def hostLd (c : Config) (i : Reg) (value : Nat) : List (Event c.W) :=
  (List.range c.K).map fun j =>
    .host (.write (windowAddr i j) (BitVec.ofNat 32 (value / 2 ^ (32 * j))))

/-- `cmd <assembly>`: the write of the command's word to CMD (R100). -/
def hostCmd (c : Config) (i : Instr) : List (Event c.W) :=
  [.host (.write 0x0008#16 (encode i))]

/-- `st rI`: the reads of the K words of R[I] (R100). -/
def hostSt (c : Config) (i : Reg) : List (Event c.W) :=
  (List.range c.K).map fun j => .host (.read (windowAddr i j))

/-- `chk`: a read of STATUS (R100). -/
def hostChk (c : Config) : List (Event c.W) := [.host (.read 0x000C#16)]

/-- `clr`: clears DONE, ERR and OVR (R100). -/
def hostClr (c : Config) : List (Event c.W) := [.host (.write 0x000C#16 0x0000000E#32)]

/-- `rng v`: the environment answers the outstanding request with `v` (R100). -/
def envRng (c : Config) (v : Nat) : List (Event c.W) := [.answer (BitVec.ofNat c.W v)]

end Sys2Proof.Machine
end

