-- ==== Sys2Proof/Safety.lean ====
section
/-! DEFINITION. What a good state is: the invariants that the spec states of the status register
(R34), of the engine's hidden state (R23) and of the randomness port (R196 to R198). -/

namespace Sys2Proof.Machine

variable {W : Nat}

/-- The latches hold exactly the operands of the command, and the operands passed the command's
acceptance check (R120 step 6, R122; the checks of R141 to R144, R160, R171 to R173, R191). -/
def latchesFit : Instr → Latches W → Prop
  | .nop, S => S = ⟨none, none, none, none, none⟩
  | .montmul _ _ _ _, S => ∃ a b n, S = ⟨some a, some b, some n, none, none⟩ ∧
      n.toNat % 2 = 1 ∧ a.toNat < n.toNat ∧ b.toNat < n.toNat
  | .tomont _ _ _, S => ∃ a n, S = ⟨some a, some n, none, none, none⟩ ∧
      n.toNat % 2 = 1 ∧ a.toNat < n.toNat
  | .frommont _ _ _, S => ∃ a n, S = ⟨some a, some n, none, none, none⟩ ∧
      n.toNat % 2 = 1 ∧ a.toNat < n.toNat
  | .modmul _ _ _ _, S => ∃ a b n, S = ⟨some a, some b, some n, none, none⟩ ∧ n.toNat ≠ 0
  | .modexp _ _ _ _, S => ∃ a e n, S = ⟨some a, some e, some n, none, none⟩ ∧ 1 < n.toNat
  | .egcd _ _ _ _ _, S => ∃ a b, S = ⟨some a, some b, none, none, none⟩
  | .gcd _ _ _, S => ∃ a b, S = ⟨some a, some b, none, none, none⟩
  | .modinv _ _ _, S => ∃ a n, S = ⟨some a, some n, none, none, none⟩ ∧ n.toNat ≠ 0
  | .mrround _ _ _, S => ∃ n a, S = ⟨some n, some a, none, none, none⟩ ∧
      n.toNat % 2 = 1 ∧ 3 ≤ n.toNat ∧ 1 ≤ a.toNat ∧ a.toNat < n.toNat
  | .mrtest _ _ _, S => ∃ n, S = ⟨some n, none, none, none, none⟩

/-- MRTEST's round state for candidate `n` and immediate `imm8` (R192). -/
structure MrState.Fits (mr : MrState) (n : Nat) (imm8 : BitVec 8) : Prop where
  /-- the total is the count that the immediate selects (R93) -/
  rounds_eq : mr.rounds = roundCount imm8
  /-- no more rounds have passed than there are -/
  idx_le : mr.roundIdx ≤ mr.rounds
  /-- rounds run for odd `n >= 3` alone, and one is still to come -/
  undecided : mr.verdict = .undecided → n % 2 = 1 ∧ 3 ≤ n ∧ mr.roundIdx < mr.rounds
  /-- the verdict is 1 for 2 without a round, and otherwise after every round has passed -/
  prime : mr.verdict = .probablePrime → n = 2 ∨ (n % 2 = 1 ∧ 3 ≤ n ∧ mr.roundIdx = mr.rounds)

/-- MRTEST's hidden state and the randomness port agree: a request is outstanding only while the
verdict is undecided, over `[1, n)` (R197). -/
def Aacore.mrFits (m : Aacore W) (job : Job W) (imm8 : BitVec 8) : Prop :=
  ∃ n mr, job.latches.s1 = some n ∧ job.mr = some mr ∧ mr.Fits n.toNat imm8 ∧
    (m.rngPending = true → mr.verdict = .undecided ∧ m.rngLo = 1 ∧ m.rngHi = n)

/-- Only MRTEST has a round state or a request (R192, R198). -/
def Aacore.portFits (m : Aacore W) (job : Job W) : Instr → Prop
  | .mrtest _ _ imm8 => m.mrFits job imm8
  | .nop => job.mr = none ∧ m.rngPending = false
  | .montmul _ _ _ _ => job.mr = none ∧ m.rngPending = false
  | .tomont _ _ _ => job.mr = none ∧ m.rngPending = false
  | .frommont _ _ _ => job.mr = none ∧ m.rngPending = false
  | .modmul _ _ _ _ => job.mr = none ∧ m.rngPending = false
  | .modexp _ _ _ _ => job.mr = none ∧ m.rngPending = false
  | .egcd _ _ _ _ _ => job.mr = none ∧ m.rngPending = false
  | .gcd _ _ _ => job.mr = none ∧ m.rngPending = false
  | .modinv _ _ _ => job.mr = none ∧ m.rngPending = false
  | .mrround _ _ _ => job.mr = none ∧ m.rngPending = false

/-- The command `i` in the slot is the accepted command, with its operands, and it alone drives the
randomness port if it is MRTEST (R23, R198). -/
structure Aacore.JobFits (m : Aacore W) (job : Job W) (i : Instr) : Prop where
  /-- `cur` is the word of the command, and the last word accepted -/
  cur_lastcmd : job.cur = m.lastcmd
  cur_decode : decode job.cur = .ok i
  wellFormed : i.WellFormed
  latches : latchesFit i job.latches
  port : m.portFits job i

/-- The invariant of AACORE's state. -/
structure Aacore.Inv (m : Aacore W) : Prop where
  /-- DONE and ERR are never both 1 (R34) -/
  done_err : ¬(m.done = true ∧ m.err = true)
  /-- BUSY implies DONE = 0 and ERR = 0 (R34) -/
  busy_flags : m.busy = true → m.done = false ∧ m.err = false
  /-- ECODE is nonzero exactly when ERR = 1 (R34) -/
  ecode_err : m.ecode.isSome = m.err
  /-- while ERR = 1, ECMD is the word of the last command accepted (R33, R211) -/
  err_ecmd : m.err = true → m.ecmd = m.lastcmd
  /-- a randomness request implies BUSY (R34) -/
  pending_busy : m.rngPending = true → m.busy = true
  /-- with no request, the bounds read 0 (R196) -/
  bounds_zero : m.rngPending = false → m.rngLo = 0 ∧ m.rngHi = 0
  /-- while EXEC, the slot holds an accepted command (R23) -/
  slot : ∀ job, m.phase = .exec job → ∃ i, m.JobFits job i

/-- AACORE after the command word `w` ended in error `c` at acceptance: R120 steps 2 and 3 and R211,
written out. No register is written, and OVR and IRQEN are kept. -/
def Aacore.endedInError (m : Aacore W) (w : Word) (c : ErrorCode) : Aacore W :=
  { m with
    phase := .idle
    lastcmd := w
    done := false
    err := true
    ecode := some c
    ecmd := w
    rngPending := false
    rngLo := 0
    rngHi := 0 }

/-- AACORE with the command `i` accepted and in execution: R120 steps 2, 3, 5 and 7, written out.
Registers, OVR, IRQEN, ECMD and the randomness port are kept. -/
def Aacore.inExecution (m : Aacore W) (i : Instr) (S : Latches W) (mr : Option MrState) :
    Aacore W :=
  { m with
    phase := .exec { cur := encode i, latches := S, mr := mr }
    lastcmd := encode i
    done := false
    err := false
    ecode := none }

/-- AACORE after a command with one destination completed: R124, written out. Everything but the
destination, the phase and DONE is kept. -/
def Aacore.finished (m : Aacore W) (rd : Reg) (v : BitVec W) : Aacore W :=
  { m with
    regs := m.regs.set rd.val v rd.isLt
    phase := .idle
    done := true }

/-- AACORE after the command in execution ended in error `c` (R211), written out. -/
def Aacore.failed (m : Aacore W) (c : ErrorCode) : Aacore W :=
  { m with
    phase := .idle
    done := false
    err := true
    ecode := some c
    ecmd := m.lastcmd
    rngPending := false
    rngLo := 0
    rngHi := 0 }

/-- The destination registers of a command (R94). -/
def dests : Instr → List Reg
  | .nop => []
  | .montmul rd _ _ _ => [rd]
  | .tomont rd _ _ => [rd]
  | .frommont rd _ _ => [rd]
  | .modmul rd _ _ _ => [rd]
  | .modexp rd _ _ _ => [rd]
  | .egcd rg rx ry _ _ => [rg, rx, ry]
  | .gcd rd _ _ => [rd]
  | .modinv rd _ _ => [rd]
  | .mrround rd _ _ => [rd]
  | .mrtest rd _ _ => [rd]

/-- A safe state of the machine: AACORE's part meets the invariant. -/
def State.Inv (s : State) : Prop := s.core.Inv

end Sys2Proof.Machine
end

