-- ==== Sys2Proof/Certificates/Slice0/Obligations.lean ====
section
/-! DEFINITION. The statements of the model, one `Prop` each. A register's value is written as
`(m.reg r).toNat`, and every statement over a state or a configuration holds for every K. -/

open Sys2Proof Sys2Proof.Machine

/-! ## Encoding -/

/-- R90, R91, R92, R94: decoding the word of any command gives the command back, with every
operand. -/
def Obligations.DecodeInvertsEncode : Prop :=
  ∀ i : Instr, decode (encode i) = .ok i

/-- R90 to R94: a word that decodes is the encoding of what it decodes to, so no bit of it is
ignored. -/
def Obligations.EncodeInvertsDecode : Prop :=
  ∀ (w : Word) (i : Instr), decode w = .ok i → encode i = w

/-- R95: which words are legal, as the three conditions on the bits of the word and as the mask test
with condition 3; and a word that is not legal raises ILLEGAL at acceptance. -/
def Obligations.LegalWordsAndIllegalOnes : Prop :=
  (∀ w : Word, legal w = true ↔
    (w.extractLsb' 24 8 = 0x00#8 ∧ w.extractLsb' 0 24 = 0) ∨
    ((w.extractLsb' 24 8 = 0x10#8 ∨ w.extractLsb' 24 8 = 0x13#8 ∨ w.extractLsb' 24 8 = 0x20#8) ∧
      w.extractLsb' 0 8 = 0) ∨
    ((w.extractLsb' 24 8 = 0x11#8 ∨ w.extractLsb' 24 8 = 0x12#8 ∨ w.extractLsb' 24 8 = 0x31#8 ∨
        w.extractLsb' 24 8 = 0x32#8 ∨ w.extractLsb' 24 8 = 0x40#8) ∧
      w.extractLsb' 0 12 = 0) ∨
    (w.extractLsb' 24 8 = 0x30#8 ∧ w.extractLsb' 0 4 = 0 ∧
      w.extractLsb' 20 4 ≠ w.extractLsb' 16 4 ∧ w.extractLsb' 20 4 ≠ w.extractLsb' 12 4 ∧
      w.extractLsb' 16 4 ≠ w.extractLsb' 12 4) ∨
    (w.extractLsb' 24 8 = 0x41#8 ∧ w.extractLsb' 8 8 = 0)) ∧
  (∀ w : Word, legal w = true ↔
    (∃ row ∈ opcodeTable, w &&& row.mask = row.pattern) ∧
      (w.extractLsb' 24 8 = 0x30#8 → w.extractLsb' 20 4 ≠ w.extractLsb' 16 4 ∧
        w.extractLsb' 20 4 ≠ w.extractLsb' 12 4 ∧ w.extractLsb' 16 4 ≠ w.extractLsb' 12 4)) ∧
  (∀ (s : State) (w : Word), legal w = false → s.rst = false →
    s.core.phase = .idle → s.nextEvent = .host (.write 0x0008#16 w) →
    step s = .next { s with
      inputs := s.inputs.tail
      response := some (.write false)
      core := s.core.endedInError w .illegal })

/-- R96: the 245 reserved opcodes are no command, whatever the fields, and raise ILLEGAL at
acceptance. -/
def Obligations.ReservedOpcodesAreIllegal : Prop :=
  ((List.range 256).filter fun v =>
      (1 ≤ v ∧ v ≤ 0x0F) ∨ (0x14 ≤ v ∧ v ≤ 0x1F) ∨ (0x21 ≤ v ∧ v ≤ 0x2F) ∨
        (0x33 ≤ v ∧ v ≤ 0x3F) ∨ (0x42 ≤ v ∧ v ≤ 0xFF)).length = 245 ∧
  ∀ w : Word,
    (decode w = .reject .reservedOpcode ↔
      (1 ≤ (opField w).toNat ∧ (opField w).toNat ≤ 0x0F) ∨
      (0x14 ≤ (opField w).toNat ∧ (opField w).toNat ≤ 0x1F) ∨
      (0x21 ≤ (opField w).toNat ∧ (opField w).toNat ≤ 0x2F) ∨
      (0x33 ≤ (opField w).toNat ∧ (opField w).toNat ≤ 0x3F) ∨
      (0x42 ≤ (opField w).toNat ∧ (opField w).toNat ≤ 0xFF)) ∧
    (decode w = .reject .reservedOpcode → ∀ (s : State),
      s.rst = false → s.core.phase = .idle → s.nextEvent = .host (.write 0x0008#16 w) →
      step s = .next { s with
        inputs := s.inputs.tail
        response := some (.write false)
        core := s.core.endedInError w .illegal })

/-- R94, R98: words written out from the spec's encodings decode to their commands. -/
def Obligations.SpecWordsDecode : Prop :=
  decode 0x00000000#32 = .ok .nop ∧
  decode 0x10534200#32 = .ok (.montmul 5 3 4 2) ∧
  decode 0x11302000#32 = .ok (.tomont 3 0 2) ∧
  decode 0x20ba6200#32 = .ok (.modexp 11 10 6 2) ∧
  decode 0x30012010#32 = .ok (.egcd 0 1 2 0 1) ∧
  decode 0x32865000#32 = .ok (.modinv 8 6 5) ∧
  decode 0x41300003#32 = .ok (.mrtest 3 0 3) ∧
  decode 0x10301201#32 = .reject .reservedField ∧
  decode 0x99000000#32 = .reject .reservedOpcode

/-- R99: each pseudo-instruction expands to exactly the one command of its row. -/
def Obligations.PseudoInstructionsExpand : Prop :=
  ∀ a b c d : Reg,
    assembleParts "MODSQR" [.reg a, .reg b, .reg c] = some (.modmul a b b c) ∧
    assembleParts "ENCRYPT" [.reg a, .reg b, .reg c, .reg d] = some (.modexp a b c d) ∧
    assembleParts "DECRYPT" [.reg a, .reg b, .reg c, .reg d] = some (.modexp a b c d) ∧
    assembleParts "MRTEST" [.reg a, .reg b] = some (.mrtest a b 0) ∧
    assembleParts "MONTSQR" [.reg a, .reg b, .reg c] = some (.montmul a b b c)

/-! ## The command lifecycle -/

/-- R63, R120, R124: a CMD write while IDLE runs the command that its word decodes to; an engine
event runs the command in the slot; and `withFetchWord`, which is the model's choice (log entry 5),
places a word where the next step runs it. -/
def Obligations.StepRunsTheDecodedCommand : Prop :=
  (∀ (s : State) (w : Word) (i : Instr), s.rst = false →
    s.core.phase = .idle → s.nextEvent = .host (.write 0x0008#16 w) → decode w = .ok i →
    step s = exec i { s with inputs := s.inputs.tail, response := some (.write false) }) ∧
  (∀ (s : State) (job : Job s.cfg.W) (i : Instr), s.rst = false → s.core.phase = .exec job →
    decode job.cur = .ok i → s.nextEvent = .engine →
    step s = exec i { s with inputs := s.inputs.tail, response := none }) ∧
  (∀ (s : State) (nbits w : Nat) (i : Instr), decodeTableWord nbits w = some i →
    step (s.withFetchWord nbits w) =
      exec i { s.withFetchWord nbits w with inputs := s.inputs, response := some (.write false) })

/-- R121: a CMD write while EXEC is dropped, whatever the word; it sets OVR and changes nothing
else. -/
def Obligations.BusyDropsCommandWrites : Prop :=
  ∀ (s : State) (job : Job s.cfg.W) (w : Word), s.rst = false →
    s.core.phase = .exec job → s.nextEvent = .host (.write 0x0008#16 w) →
    step s = .next { s with
      inputs := s.inputs.tail
      response := some (.write false)
      core := { s.core with ovr := true } }

/-- R120, R122, R127, R160: NOP is always accepted; MODEXP is accepted for a modulus above 1. -/
def Obligations.NopAndModexpAreAccepted : Prop :=
  ∀ s : State, s.core.phase = .idle →
    exec .nop s = .next (s.setCore
      (s.core.inExecution .nop ⟨none, none, none, none, none⟩ none)) ∧
    ∀ rd ra re rn : Reg, 1 < (s.core.reg rn).toNat →
      exec (.modexp rd ra re rn) s = .next (s.setCore (s.core.inExecution (.modexp rd ra re rn)
        ⟨some (s.core.reg ra), some (s.core.reg re), some (s.core.reg rn), none, none⟩ none))

/-- R120, R122, R141 to R144: the commands of the montgomery_multiplier are accepted, with their
operands captured, when their checks pass. -/
def Obligations.MontgomeryCommandsAreAccepted : Prop :=
  ∀ s : State, s.core.phase = .idle → ∀ rd ra rb rn : Reg,
    ((s.core.reg rn).toNat % 2 = 1 → (s.core.reg ra).toNat < (s.core.reg rn).toNat →
      (s.core.reg rb).toNat < (s.core.reg rn).toNat →
      exec (.montmul rd ra rb rn) s = .next (s.setCore (s.core.inExecution (.montmul rd ra rb rn)
        ⟨some (s.core.reg ra), some (s.core.reg rb), some (s.core.reg rn), none, none⟩ none))) ∧
    ((s.core.reg rn).toNat % 2 = 1 → (s.core.reg ra).toNat < (s.core.reg rn).toNat →
      exec (.tomont rd ra rn) s = .next (s.setCore (s.core.inExecution (.tomont rd ra rn)
        ⟨some (s.core.reg ra), some (s.core.reg rn), none, none, none⟩ none)) ∧
      exec (.frommont rd ra rn) s = .next (s.setCore (s.core.inExecution (.frommont rd ra rn)
        ⟨some (s.core.reg ra), some (s.core.reg rn), none, none, none⟩ none))) ∧
    ((s.core.reg rn).toNat ≠ 0 →
      exec (.modmul rd ra rb rn) s = .next (s.setCore (s.core.inExecution (.modmul rd ra rb rn)
        ⟨some (s.core.reg ra), some (s.core.reg rb), some (s.core.reg rn), none, none⟩ none)))

/-- R120, R122, R171 to R173: GCD is always accepted, EGCD for pairwise different destinations, and
MODINV for a modulus other than 0. -/
def Obligations.GcdCommandsAreAccepted : Prop :=
  ∀ s : State, s.core.phase = .idle → ∀ rd rx ry ra rb : Reg,
    exec (.gcd rd ra rb) s = .next (s.setCore (s.core.inExecution (.gcd rd ra rb)
      ⟨some (s.core.reg ra), some (s.core.reg rb), none, none, none⟩ none)) ∧
    (rd ≠ rx → rd ≠ ry → rx ≠ ry →
      exec (.egcd rd rx ry ra rb) s = .next (s.setCore (s.core.inExecution (.egcd rd rx ry ra rb)
        ⟨some (s.core.reg ra), some (s.core.reg rb), none, none, none⟩ none))) ∧
    ((s.core.reg rb).toNat ≠ 0 →
      exec (.modinv rd ra rb) s = .next (s.setCore (s.core.inExecution (.modinv rd ra rb)
        ⟨some (s.core.reg ra), some (s.core.reg rb), none, none, none⟩ none)))

/-- R120, R122, R191, R192: MRROUND is accepted for an odd candidate of at least 3 and a witness in
`[1, n)`; MRTEST is always accepted, and starts with the round count of its immediate and the
verdict that the candidate decides. -/
def Obligations.MillerRabinCommandsAreAccepted : Prop :=
  ∀ s : State, s.core.phase = .idle → ∀ rd rn ra : Reg,
    ((s.core.reg rn).toNat % 2 = 1 → 3 ≤ (s.core.reg rn).toNat → 1 ≤ (s.core.reg ra).toNat →
      (s.core.reg ra).toNat < (s.core.reg rn).toNat →
      exec (.mrround rd rn ra) s = .next (s.setCore (s.core.inExecution (.mrround rd rn ra)
        ⟨some (s.core.reg rn), some (s.core.reg ra), none, none, none⟩ none))) ∧
    ∀ imm8 : BitVec 8, ∃ verdict : Verdict,
      ((s.core.reg rn).toNat < 2 → verdict = .composite) ∧
      ((s.core.reg rn).toNat = 2 → verdict = .probablePrime) ∧
      (2 < (s.core.reg rn).toNat → (s.core.reg rn).toNat % 2 = 0 → verdict = .composite) ∧
      (2 < (s.core.reg rn).toNat → (s.core.reg rn).toNat % 2 = 1 → verdict = .undecided) ∧
      exec (.mrtest rd rn imm8) s = .next (s.setCore (s.core.inExecution (.mrtest rd rn imm8)
        ⟨some (s.core.reg rn), none, none, none, none⟩
        (some ⟨0, if imm8 = 0 then 10 else imm8.toNat, verdict⟩)))

/-- R214: at acceptance the modulus or candidate is checked before the other operands, and EGCD's
destinations before anything else; the first failed check is the error, and no register is
written. -/
def Obligations.AcceptanceErrorsInOrder : Prop :=
  ∀ s : State, s.core.phase = .idle → ∀ rd ra rb rn : Reg,
    ((s.core.reg rn).toNat % 2 = 0 →
      exec (.montmul rd ra rb rn) s =
        .next (s.setCore (s.core.endedInError (encode (.montmul rd ra rb rn)) .domain)) ∧
      exec (.tomont rd ra rn) s =
        .next (s.setCore (s.core.endedInError (encode (.tomont rd ra rn)) .domain)) ∧
      exec (.frommont rd ra rn) s =
        .next (s.setCore (s.core.endedInError (encode (.frommont rd ra rn)) .domain))) ∧
    ((s.core.reg rn).toNat % 2 = 1 →
      ((s.core.reg rn).toNat ≤ (s.core.reg ra).toNat ∨
        (s.core.reg rn).toNat ≤ (s.core.reg rb).toNat) →
      exec (.montmul rd ra rb rn) s =
        .next (s.setCore (s.core.endedInError (encode (.montmul rd ra rb rn)) .range))) ∧
    ((s.core.reg rn).toNat % 2 = 1 → (s.core.reg rn).toNat ≤ (s.core.reg ra).toNat →
      exec (.tomont rd ra rn) s =
        .next (s.setCore (s.core.endedInError (encode (.tomont rd ra rn)) .range)) ∧
      exec (.frommont rd ra rn) s =
        .next (s.setCore (s.core.endedInError (encode (.frommont rd ra rn)) .range))) ∧
    ((s.core.reg rn).toNat = 0 →
      exec (.modmul rd ra rb rn) s =
        .next (s.setCore (s.core.endedInError (encode (.modmul rd ra rb rn)) .domain)) ∧
      exec (.modinv rd ra rn) s =
        .next (s.setCore (s.core.endedInError (encode (.modinv rd ra rn)) .domain))) ∧
    ((s.core.reg rn).toNat ≤ 1 →
      exec (.modexp rd ra rb rn) s =
        .next (s.setCore (s.core.endedInError (encode (.modexp rd ra rb rn)) .domain))) ∧
    (((s.core.reg rn).toNat % 2 = 0 ∨ (s.core.reg rn).toNat < 3) →
      exec (.mrround rd rn ra) s =
        .next (s.setCore (s.core.endedInError (encode (.mrround rd rn ra)) .domain))) ∧
    ((s.core.reg rn).toNat % 2 = 1 → 3 ≤ (s.core.reg rn).toNat →
      ((s.core.reg ra).toNat = 0 ∨ (s.core.reg rn).toNat ≤ (s.core.reg ra).toNat) →
      exec (.mrround rd rn ra) s =
        .next (s.setCore (s.core.endedInError (encode (.mrround rd rn ra)) .range))) ∧
    (∀ rg rx ry : Reg, (rg = rx ∨ rg = ry ∨ rx = ry) →
      exec (.egcd rg rx ry ra rb) s =
        .next (s.setCore (s.core.endedInError (encode (.egcd rg rx ry ra rb)) .illegal)))

/-! ## What each command completes with -/

/-- R124, R127: NOP completes with no destination. -/
def Obligations.NopCompletes : Prop :=
  ∀ (s : State) (job : Job s.cfg.W), s.core.phase = .exec job → s.core.rngPending = false →
    exec .nop s = .next (s.setCore { s.core with phase := .idle, done := true })

/-- R124, R140, R141: MONTMUL writes `(a * b * Rinv) mod n` to its destination, with Rinv the
inverse of R modulo n, and changes nothing else but the phase and DONE. -/
def Obligations.MontmulCompletes : Prop :=
  ∀ (s : State) (job : Job s.cfg.W) (rd ra rb rn : Reg) (a b n : BitVec s.cfg.W),
    s.core.phase = .exec job → s.core.rngPending = false → job.latches.s1 = some a →
    job.latches.s2 = some b → job.latches.s3 = some n → n.toNat % 2 = 1 →
    ∃ (rinv : Nat) (v : BitVec s.cfg.W), rinv < n.toNat ∧
      2 ^ s.cfg.W * rinv % n.toNat = 1 % n.toNat ∧ v.toNat = a.toNat * b.toNat * rinv % n.toNat ∧
      exec (.montmul rd ra rb rn) s = .next (s.setCore (s.core.finished rd v))

/-- R124, R142: TOMONT writes `(a * R) mod n`. -/
def Obligations.TomontCompletes : Prop :=
  ∀ (s : State) (job : Job s.cfg.W) (rd ra rn : Reg) (a n : BitVec s.cfg.W),
    s.core.phase = .exec job → s.core.rngPending = false → job.latches.s1 = some a →
    job.latches.s2 = some n → n.toNat % 2 = 1 →
    ∃ v : BitVec s.cfg.W, v.toNat = a.toNat * 2 ^ s.cfg.W % n.toNat ∧
      exec (.tomont rd ra rn) s = .next (s.setCore (s.core.finished rd v))

/-- R124, R143: FROMMONT writes `(a * Rinv) mod n`. -/
def Obligations.FrommontCompletes : Prop :=
  ∀ (s : State) (job : Job s.cfg.W) (rd ra rn : Reg) (a n : BitVec s.cfg.W),
    s.core.phase = .exec job → s.core.rngPending = false → job.latches.s1 = some a →
    job.latches.s2 = some n → n.toNat % 2 = 1 →
    ∃ (rinv : Nat) (v : BitVec s.cfg.W), rinv < n.toNat ∧
      2 ^ s.cfg.W * rinv % n.toNat = 1 % n.toNat ∧ v.toNat = a.toNat * rinv % n.toNat ∧
      exec (.frommont rd ra rn) s = .next (s.setCore (s.core.finished rd v))

/-- R124, R144: MODMUL writes `(a * b) mod n`, for operands of any size and any modulus but 0. -/
def Obligations.ModmulCompletes : Prop :=
  ∀ (s : State) (job : Job s.cfg.W) (rd ra rb rn : Reg) (a b n : BitVec s.cfg.W),
    s.core.phase = .exec job → s.core.rngPending = false → job.latches.s1 = some a →
    job.latches.s2 = some b → job.latches.s3 = some n → n.toNat ≠ 0 →
    ∃ v : BitVec s.cfg.W, v.toNat = a.toNat * b.toNat % n.toNat ∧
      exec (.modmul rd ra rb rn) s = .next (s.setCore (s.core.finished rd v))

/-- R124, R160: MODEXP writes `a^e mod n` exactly, for every base and every exponent. -/
def Obligations.ModexpCompletes : Prop :=
  ∀ (s : State) (job : Job s.cfg.W) (rd ra re rn : Reg) (a e n : BitVec s.cfg.W),
    s.core.phase = .exec job → s.core.rngPending = false → job.latches.s1 = some a →
    job.latches.s2 = some e → job.latches.s3 = some n → 1 < n.toNat →
    ∃ v : BitVec s.cfg.W, v.toNat = a.toNat ^ e.toNat % n.toNat ∧
      exec (.modexp rd ra re rn) s = .next (s.setCore (s.core.finished rd v))

/-- R124, R171: EGCD writes the divisor and both coefficients, in two's complement, where both fit;
they satisfy `a*x + b*y = g`, and nothing else changes but the phase and DONE. -/
def Obligations.EgcdCompletes : Prop :=
  ∀ (s : State) (job : Job s.cfg.W) (rg rx ry ra rb : Reg) (a b : BitVec s.cfg.W),
    s.core.phase = .exec job → s.core.rngPending = false → job.latches.s1 = some a →
    job.latches.s2 = some b → rg ≠ rx → rg ≠ ry → rx ≠ ry →
    -(2 : Int) ^ (s.cfg.W - 1) ≤ (egcd a.toNat b.toNat).x →
    (egcd a.toNat b.toNat).x < (2 : Int) ^ (s.cfg.W - 1) →
    -(2 : Int) ^ (s.cfg.W - 1) ≤ (egcd a.toNat b.toNat).y →
    (egcd a.toNat b.toNat).y < (2 : Int) ^ (s.cfg.W - 1) →
    ∃ m : Aacore s.cfg.W,
      exec (.egcd rg rx ry ra rb) s = .next (s.setCore m) ∧
      m = { s.core with regs := m.regs, phase := .idle, done := true } ∧
      (m.reg rg).toNat = Nat.gcd a.toNat b.toNat ∧
      (m.reg rx).toInt = (egcd a.toNat b.toNat).x ∧
      (m.reg ry).toInt = (egcd a.toNat b.toNat).y ∧
      (a.toNat : Int) * (m.reg rx).toInt + (b.toNat : Int) * (m.reg ry).toInt =
        ((m.reg rg).toNat : Int) ∧
      ∀ q : Reg, q ≠ rg → q ≠ rx → q ≠ ry → m.reg q = s.core.reg q

/-- R171, R211: completing EGCD with a coefficient that does not fit W-bit two's complement ends it in
OVERFLOW, with no register written. It is said for every width of the operands, because no operands
of a configured width are known to come here (G3 of 93_implementation_defined.md). -/
def Obligations.EgcdOverflowIsRaised : Prop :=
  ∀ (W : Nat) (m : Aacore W) (rg rx ry : Reg) (a b : BitVec W),
    ((egcd a.toNat b.toNat).x < -(2 : Int) ^ (W - 1) ∨
      (2 : Int) ^ (W - 1) ≤ (egcd a.toNat b.toNat).x ∨
      (egcd a.toNat b.toNat).y < -(2 : Int) ^ (W - 1) ∨
      (2 : Int) ^ (W - 1) ≤ (egcd a.toNat b.toNat).y) →
    m.complete (egcdResult rg rx ry a b) = m.failed .overflow

/-- R124, R172: GCD writes the greatest common divisor, with `gcd(0, 0) = 0`. -/
def Obligations.GcdCompletes : Prop :=
  ∀ (s : State) (job : Job s.cfg.W) (rd ra rb : Reg) (a b : BitVec s.cfg.W),
    s.core.phase = .exec job → s.core.rngPending = false → job.latches.s1 = some a →
    job.latches.s2 = some b →
    ∃ v : BitVec s.cfg.W, v.toNat = Nat.gcd a.toNat b.toNat ∧
      exec (.gcd rd ra rb) s = .next (s.setCore (s.core.finished rd v))

/-- R124, R173: MODINV writes the inverse in `[0, n)` of an operand coprime to n, which is 0 for
n = 1, and ends in NOINV with no register written for any other operand. -/
def Obligations.ModinvCompletes : Prop :=
  ∀ (s : State) (job : Job s.cfg.W) (rd ra rn : Reg) (a n : BitVec s.cfg.W),
    s.core.phase = .exec job → s.core.rngPending = false → job.latches.s1 = some a →
    job.latches.s2 = some n → n.toNat ≠ 0 →
    (Nat.gcd a.toNat n.toNat = 1 →
      ∃ v : BitVec s.cfg.W, v.toNat < n.toNat ∧ a.toNat * v.toNat % n.toNat = 1 % n.toNat ∧
        exec (.modinv rd ra rn) s = .next (s.setCore (s.core.finished rd v))) ∧
    (Nat.gcd a.toNat n.toNat ≠ 1 →
      exec (.modinv rd ra rn) s = .next (s.setCore (s.core.failed .noinv)))

/-- R124, R190, R191: MRROUND writes 1 exactly when n passes the round with witness a: with
`n - 1 = 2^k * d` and d odd, `a^d` is 1 modulo n, or one of `a^d, a^(2d), ..., a^(2^(k-1) d)` is
`n - 1` modulo n. It writes 0 otherwise. -/
def Obligations.MrroundCompletes : Prop :=
  ∀ (s : State) (job : Job s.cfg.W) (rd rn ra : Reg) (n a : BitVec s.cfg.W) (k d : Nat),
    s.core.phase = .exec job → s.core.rngPending = false → job.latches.s1 = some n →
    job.latches.s2 = some a → 3 ≤ n.toNat → 1 ≤ a.toNat → a.toNat < n.toNat →
    n.toNat - 1 = 2 ^ k * d → 1 ≤ k → d % 2 = 1 →
    ∃ v : BitVec s.cfg.W,
      ((a.toNat ^ d % n.toNat = 1 ∨ ∃ j < k, a.toNat ^ (2 ^ j * d) % n.toNat = n.toNat - 1) →
        v.toNat = 1) ∧
      (¬(a.toNat ^ d % n.toNat = 1 ∨ ∃ j < k, a.toNat ^ (2 ^ j * d) % n.toNat = n.toNat - 1) →
        v.toNat = 0) ∧
      exec (.mrround rd rn ra) s = .next (s.setCore (s.core.finished rd v))

/-- R124, R192, R197: MRTEST's engine event. With no request outstanding it requests a witness in
`[1, n)` while the verdict is undecided, writes a verdict of 0 or 1 to its destination, and ends in
RNG after an out-of-range answer; while a request is outstanding it does nothing. -/
def Obligations.MrtestEngineEvents : Prop :=
  ∀ (s : State) (job : Job s.cfg.W) (rd rn : Reg) (imm8 : BitVec 8) (n : BitVec s.cfg.W)
    (mr : MrState), s.core.phase = .exec job → job.latches.s1 = some n → job.mr = some mr →
    (s.core.rngPending = true → exec (.mrtest rd rn imm8) s = .next s) ∧
    (s.core.rngPending = false → mr.verdict = .undecided →
      exec (.mrtest rd rn imm8) s =
        .next (s.setCore { s.core with rngPending := true, rngLo := 1, rngHi := n })) ∧
    (s.core.rngPending = false → mr.verdict = .composite →
      exec (.mrtest rd rn imm8) s = .next (s.setCore (s.core.finished rd 0))) ∧
    (s.core.rngPending = false → mr.verdict = .probablePrime →
      exec (.mrtest rd rn imm8) s = .next (s.setCore (s.core.finished rd 1))) ∧
    (s.core.rngPending = false → mr.verdict = .rngError →
      exec (.mrtest rd rn imm8) s = .next (s.setCore (s.core.failed .rng)))

/-! ## The randomness port -/

/-- R192, R196: the answer to an outstanding request ends the request and evaluates the round: out
of `[1, n)` the verdict is the RNG error, a failed round makes it 0, and a passed round counts and
makes it 1 when it was the last. -/
def Obligations.AnswerEvaluatesTheRound : Prop :=
  ∀ (s : State) (job : Job s.cfg.W) (n v : BitVec s.cfg.W) (mr : MrState),
    s.rst = false → s.nextEvent = .answer v →
    s.core.rngPending = true → s.core.phase = .exec job → job.latches.s1 = some n →
    job.mr = some mr → mr.verdict = .undecided →
    ∃ mr' : MrState,
      step s = .next { s with
        inputs := s.inputs.tail
        response := none
        core := { s.core with
          rngPending := false
          rngLo := 0
          rngHi := 0
          phase := .exec { job with mr := some mr' } } } ∧
      (¬(1 ≤ v.toNat ∧ v.toNat < n.toNat) → mr' = { mr with verdict := .rngError }) ∧
      (1 ≤ v.toNat → v.toNat < n.toNat → mrRound n.toNat v.toNat = false →
        mr' = { mr with verdict := .composite }) ∧
      (1 ≤ v.toNat → v.toNat < n.toNat → mrRound n.toNat v.toNat = true →
        mr' = { mr with
          roundIdx := mr.roundIdx + 1
          verdict := if mr.roundIdx + 1 = mr.rounds then .probablePrime else .undecided })

/-- R196, R198: an answer with no request outstanding is ignored, and nothing is kept of it. -/
def Obligations.UnrequestedAnswerIsIgnored : Prop :=
  ∀ (s : State) (v : BitVec s.cfg.W), s.rst = false →
    s.nextEvent = .answer v → s.core.rngPending = false →
    step s = .next { s with inputs := s.inputs.tail, response := none }

/-- R198: a request appears only by an engine event of an undecided MRTEST in the slot, over `[1, n)`
for its candidate n. -/
def Obligations.OnlyMrtestRequestsWitnesses : Prop :=
  ∀ s t : State, step s = .next t → s.core.rngPending = false → t.core.rngPending = true →
    ∃ (job : Job s.cfg.W) (rd rn : Reg) (imm8 : BitVec 8) (mr : MrState) (n : BitVec s.cfg.W),
      s.nextEvent = .engine ∧ s.core.phase = .exec job ∧
      decode job.cur = .ok (.mrtest rd rn imm8) ∧ job.mr = some mr ∧ mr.verdict = .undecided ∧
      job.latches.s1 = some n ∧
      t = { s with
        inputs := s.inputs.tail
        response := none
        core := { s.core with rngPending := true, rngLo := 1, rngHi := n } }

/-! ## The bus -/

/-- R62, R68, R69, R70: what a host read of each address returns. A read changes nothing but the bus
response. -/
def Obligations.ReadOfEveryAddress : Prop :=
  ∀ (s : State) (a : Addr), s.rst = false →
    s.nextEvent = .host (.read a) →
    ∃ (err : Bool) (d : Word),
      step s = .next { s with inputs := s.inputs.tail, response := some (.read err d) } ∧
      (a = 0x0000#16 → err = false ∧ d = 0xAAC00001#32) ∧
      (a = 0x0004#16 → err = false ∧ d = paramWord s.cfg) ∧
      (a = 0x0008#16 → err = false ∧ d = s.core.lastcmd) ∧
      (a = 0x000C#16 → err = false ∧ d = s.core.statusWord) ∧
      (a = 0x0010#16 → err = false ∧ d = s.core.ctrlWord) ∧
      (a = 0x0014#16 → err = false ∧ d = s.core.ecmd) ∧
      (∀ (i : Reg) (j : Nat), j < s.cfg.K → a.toNat = 0x1000 + 0x100 * i.val + 4 * j →
        err = false ∧ d.toNat = (s.core.reg i).toNat / 2 ^ (32 * j) % 2 ^ 32) ∧
      ((a.toNat % 4 ≠ 0 ∨ (0x0018 ≤ a.toNat ∧ a.toNat < 0x1000) ∨ 0x2000 ≤ a.toNat ∨
          (0x1000 ≤ a.toNat ∧ s.cfg.K ≤ a.toNat % 0x100 / 4)) → err = true ∧ d = 0)

/-- R65, R70: a write to a misaligned or unmapped address is a bus error and changes nothing. -/
def Obligations.BadAddressWriteChangesNothing : Prop :=
  ∀ (s : State) (a : Addr) (v : Word), s.rst = false →
    s.nextEvent = .host (.write a v) →
    (a.toNat % 4 ≠ 0 ∨ (0x0018 ≤ a.toNat ∧ a.toNat < 0x1000) ∨ 0x2000 ≤ a.toNat ∨
      (0x1000 ≤ a.toNat ∧ s.cfg.K ≤ a.toNat % 0x100 / 4)) →
    step s = .next { s with inputs := s.inputs.tail, response := some (.write true) }

/-- R30, R63: a write to ID, PARAM or ECMD is ignored, with no bus error. -/
def Obligations.ReadOnlyRegistersIgnoreWrites : Prop :=
  ∀ (s : State) (a : Addr) (v : Word), s.rst = false →
    s.nextEvent = .host (.write a v) → (a = 0x0000#16 ∨ a = 0x0004#16 ∨ a = 0x0014#16) →
    step s = .next { s with inputs := s.inputs.tail, response := some (.write false) }

/-- R63, R67, R69: a host write of word j of `R[i]` while IDLE replaces that word and keeps every
other word and register; while EXEC it is dropped and sets OVR. -/
def Obligations.RegisterWindowWrites : Prop :=
  ∀ (s : State) (a : Addr) (v : Word) (i : Reg) (j : Nat),
    s.rst = false → s.nextEvent = .host (.write a v) → j < s.cfg.K →
    a.toNat = 0x1000 + 0x100 * i.val + 4 * j →
    (s.core.phase = .idle → ∃ x : BitVec s.cfg.W,
      step s = .next { s with
        inputs := s.inputs.tail
        response := some (.write false)
        core := { s.core with regs := s.core.regs.set i.val x i.isLt } } ∧
      ∀ b, x.getLsbD b =
        if 32 * j ≤ b ∧ b < 32 * j + 32 then v.getLsbD (b - 32 * j)
        else (s.core.reg i).getLsbD b) ∧
    (∀ job, s.core.phase = .exec job →
      step s = .next { s with
        inputs := s.inputs.tail
        response := some (.write false)
        core := { s.core with ovr := true } })

/-- R67: a register's value is the sum of its K words, word 0 the least significant. -/
def Obligations.RegisterIsTheSumOfItsWords : Prop :=
  ∀ (c : Config) (v : BitVec c.W),
    v.toNat = ∑ j ∈ Finset.range c.K, (wordOf v j).toNat * 2 ^ (32 * j)

/-- R35: a write of v to STATUS clears DONE, ERR with ECODE, and OVR where v has a 1, and nothing
else. -/
def Obligations.StatusWriteClearsWhatIsWrittenOne : Prop :=
  ∀ (s : State) (v : Word), s.rst = false →
    s.nextEvent = .host (.write 0x000C#16 v) →
    step s = .next { s with
      inputs := s.inputs.tail
      response := some (.write false)
      core := { s.core with
        done := if v[1] then false else s.core.done
        err := if v[2] then false else s.core.err
        ecode := if v[2] then none else s.core.ecode
        ovr := if v[3] then false else s.core.ovr } }

/-- R37, R221, R242: a write of v to CTRL. With SRST it is a soft reset and nothing else; otherwise it
sets IRQEN, and with ABORT it ends the command in execution in ABORTED and has no further effect
while IDLE. -/
def Obligations.CtrlWriteActs : Prop :=
  ∀ (s : State) (v : Word), s.rst = false →
    s.nextEvent = .host (.write 0x0010#16 v) →
    (v[2] = true →
      step s = .next { s with
        inputs := s.inputs.tail
        response := some (.write false)
        core := Aacore.reset s.cfg.W }) ∧
    (v[2] = false → (v[1] = false ∨ s.core.phase = .idle) →
      step s = .next { s with
        inputs := s.inputs.tail
        response := some (.write false)
        core := { s.core with irqen := v[0] } }) ∧
    (v[2] = false → v[1] = true → ∀ job, s.core.phase = .exec job →
      step s = .next { s with
        inputs := s.inputs.tail
        response := some (.write false)
        core := ({ s.core with irqen := v[0] } : Aacore s.cfg.W).failed .aborted })

/-- R34, R212: the fields of a STATUS read. -/
def Obligations.StatusReadFields : Prop :=
  ∀ (W : Nat) (m : Aacore W),
    (m.statusWord[0] = true ↔ ∃ job, m.phase = .exec job) ∧
    m.statusWord[1] = m.done ∧ m.statusWord[2] = m.err ∧ m.statusWord[3] = m.ovr ∧
    m.statusWord[8] = m.rngPending ∧ m.statusWord.extractLsb' 9 23 = 0 ∧
    (m.statusWord.extractLsb' 4 4).toNat = match m.ecode with
      | none => 0
      | some .illegal => 1
      | some .domain => 2
      | some .range => 3
      | some .noinv => 4
      | some .overflow => 5
      | some .rng => 6
      | some .aborted => 7

/-- R31, R32, R36: the fields of ID, PARAM and CTRL reads, for every configuration. -/
def Obligations.ConstantAndControlReadFields : Prop :=
  idValue.extractLsb' 16 16 = 0xAAC0#16 ∧ idValue.extractLsb' 0 16 = 0x0001#16 ∧
  ∀ (c : Config) (m : Aacore c.W),
    ((paramWord c).extractLsb' 0 8).toNat = c.K ∧
    ((paramWord c).extractLsb' 8 8).toNat = 16 ∧
    ((paramWord c).extractLsb' 16 8).toNat = 10 ∧
    ((paramWord c).extractLsb' 24 8).toNat = 1 ∧
    m.ctrlWord[0] = m.irqen ∧ m.ctrlWord.extractLsb' 1 31 = 0

/-! ## Reset, the interrupt and the other pins -/

/-- R40, R241: the state after reset, for every configuration. -/
def Obligations.ResetState : Prop :=
  ∀ c : Config,
    (∀ r : Reg, (State.resetOf c).core.reg r = 0) ∧
    (State.resetOf c).core.phase = .idle ∧ (State.resetOf c).core.lastcmd = 0 ∧
    (State.resetOf c).core.statusWord = 0 ∧ (State.resetOf c).core.irqen = false ∧
    (State.resetOf c).core.ecmd = 0 ∧ (State.resetOf c).core.rngPending = false ∧
    (State.resetOf c).core.rngLo = 0 ∧ (State.resetOf c).core.rngHi = 0 ∧
    (State.resetOf c).outputs.irq = false

/-- R64, R240, with `rst` held as a level between its events (log entry 7, the model's choice): a
cycle with `rst` at 1 puts every piece of state at its reset value and drives the outputs low; while
`rst` stays 1, no transaction, answer or engine event has an effect and none gets a response; and
releasing `rst` changes nothing but the bus coming ready. -/
def Obligations.HardwareReset : Prop :=
  ∀ s : State,
    (s.nextEvent = .rst true ∨ (s.rst = true ∧ s.nextEvent ≠ .rst false) → ∃ t, step s = .next t ∧
      t = { s with
        core := Aacore.reset s.cfg.W
        rst := true
        inputs := s.inputs.tail
        response := none } ∧
      t.outputs.busReady = false ∧ t.outputs.irq = false ∧ t.outputs.rngReq = false ∧
      t.outputs.rngLo.toNat = 0 ∧ t.outputs.rngHi.toNat = 0) ∧
    (s.nextEvent = .rst false → ∃ t, step s = .next t ∧
      t = { s with rst := false, inputs := s.inputs.tail, response := none } ∧
      t.outputs.busReady = true)

/-- R60, R64, R196, R197: the pins other than `irq`, outside reset. The bus is ready; `rng_req` is the
outstanding request; the bounds are the requested ones while it is outstanding, `[1, n)` for the
candidate n in the slot of a safe state, and 0 otherwise; `bus_err` and `bus_rdata` are those of the
transaction that completed, and none where R60 does not call them valid (log entry 3, the model's
choice). While a request stays outstanding across a step, its bounds stay the same. -/
def Obligations.OutputPins : Prop :=
  (∀ s : State, s.rst = false →
    s.outputs.busReady = true ∧ s.outputs.rngReq = s.core.rngPending ∧
    (s.core.rngPending = true →
      s.outputs.rngLo = s.core.rngLo ∧ s.outputs.rngHi = s.core.rngHi) ∧
    (s.core.rngPending = false → s.outputs.rngLo.toNat = 0 ∧ s.outputs.rngHi.toNat = 0) ∧
    (s.response = none → s.outputs.busErr = none ∧ s.outputs.busRdata = none) ∧
    (∀ e d, s.response = some (.read e d) →
      s.outputs.busErr = some e ∧ s.outputs.busRdata = some d) ∧
    (∀ e, s.response = some (.write e) →
      s.outputs.busErr = some e ∧ s.outputs.busRdata = none)) ∧
  (∀ s : State, s.Inv → s.rst = false → s.outputs.rngReq = true →
    ∃ (job : Job s.cfg.W) (n : BitVec s.cfg.W), s.core.phase = .exec job ∧
      job.latches.s1 = some n ∧ s.outputs.rngLo.toNat = 1 ∧ s.outputs.rngHi.toNat = n.toNat) ∧
  (∀ s t : State, step s = .next t → s.outputs.rngReq = true → t.outputs.rngReq = true →
    t.outputs.rngLo.toNat = s.outputs.rngLo.toNat ∧
    t.outputs.rngHi.toNat = s.outputs.rngHi.toNat)

/-- R216: the interrupt output outside reset, and what makes it fall: a W1C write of the pending bits,
the acceptance of a command, a reset (R216's clears), or, by its equation, a CTRL write with bit 0
clear, which takes the enable away. -/
def Obligations.InterruptOutput : Prop :=
  (∀ s : State, s.rst = false →
    s.outputs.irq = (s.core.irqen && (s.core.done || s.core.err))) ∧
  (∀ s t : State, step s = .next t → s.outputs.irq = true → t.outputs.irq = false →
    (∃ v, s.nextEvent = .host (.write 0x000C#16 v) ∧ (v[1] = true ∨ v[2] = true)) ∨
    (∃ w, s.nextEvent = .host (.write 0x0008#16 w) ∧ t.core.busy = true) ∨
    (∃ v, s.nextEvent = .host (.write 0x0010#16 v) ∧ (v[2] = true ∨ v[0] = false)) ∨
    s.nextEvent = .rst true)

/-! ## Rules of the whole machine -/

/-- R23, R34, R196: the invariant holds after reset, for every configuration. -/
def Obligations.ResetIsSafe : Prop :=
  ∀ c : Config, (State.resetOf c).Inv

/-- R23, R34, R196, R197, R198: every step from a safe state leads to a safe state, whatever the
event is. The safe states are those of `Aacore.Inv`: the invariants of R34, ECMD = LASTCMD while
ERR = 1 (R211), the port's rules (R196, R197), and a command slot that holds an accepted command with
operands that passed its check. -/
def Obligations.StepKeepsSafety : Prop :=
  ∀ s t : State, s.Inv → step s = .next t → t.Inv

/-- Every safe state has a next state, whatever the next event is: the machine never stops. -/
def Obligations.SafeStatesNeverStop : Prop :=
  ∀ s : State, s.Inv → ∃ t, step s = .next t

/-- R123: while a command is in execution, only its own engine event, an answer to its outstanding
request, an abort or a reset changes the engine's phase. The configuration never changes. -/
def Obligations.WhatChangesThePhase : Prop :=
  ∀ (s t : State) (job : Job s.cfg.W), s.Inv → s.core.phase = .exec job → step s = .next t →
    ∃ (m : Aacore s.cfg.W) (rst : Bool) (resp : Option BusResponse),
      t = { s with core := m, rst := rst, inputs := s.inputs.tail, response := resp } ∧
      (m.phase ≠ s.core.phase →
        (s.nextEvent = .engine ∧ s.core.rngPending = false ∧ m.phase = .idle) ∨
        (∃ v, s.nextEvent = .answer v ∧ s.core.rngPending = true ∧
          ∃ rd rn imm8, decode job.cur = .ok (.mrtest rd rn imm8)) ∨
        (∃ v, s.nextEvent = .host (.write 0x0010#16 v) ∧ (v[1] = true ∨ v[2] = true)) ∨
        s.nextEvent = .rst true ∨ s.rst = true)

/-- R220: the register file changes only by a host write of one word while IDLE, by a reset, or by
the completion of the command in execution, which then sets DONE and writes its destinations
alone. -/
def Obligations.WhatChangesTheRegisters : Prop :=
  ∀ s t : State, s.Inv → step s = .next t → ∀ r : Reg,
    (t.core.reg r).toNat ≠ (s.core.reg r).toNat →
    (s.core.busy = false ∧ t.core.busy = false ∧
      ∃ a v, s.nextEvent = .host (.write a v) ∧ 0x1000 ≤ a.toNat ∧ a.toNat < 0x2000 ∧
        a.toNat / 0x100 % 0x10 = r.val) ∨
    (∃ job i, s.core.phase = .exec job ∧ decode job.cur = .ok i ∧ s.nextEvent = .engine ∧
      r ∈ dests i ∧ t.core.busy = false ∧ t.core.done = true ∧ t.core.err = false) ∨
    (∃ v, s.nextEvent = .host (.write 0x0010#16 v) ∧ v[2] = true) ∨
    s.nextEvent = .rst true ∨ s.rst = true

/-- R38: ECMD is 0 after reset; it takes the word of every command that ends in an error, and nothing
but an error or a reset changes it. -/
def Obligations.WhatChangesEcmd : Prop :=
  (∀ W : Nat, (Aacore.reset W).ecmd = 0) ∧
  ∀ s t : State, step s = .next t →
    (t.core.err = true → s.core.err = false → t.core.ecmd = t.core.lastcmd) ∧
    (∀ w, s.rst = false → s.core.phase = .idle → s.nextEvent = .host (.write 0x0008#16 w) →
      t.core.err = true → t.core.ecmd = w) ∧
    (t.core.ecmd ≠ s.core.ecmd →
      (t.core.err = true ∧ t.core.ecmd = t.core.lastcmd) ∨
      (∃ v, s.nextEvent = .host (.write 0x0010#16 v) ∧ v[2] = true) ∨
      s.nextEvent = .rst true ∨ s.rst = true)

/-- R33: LASTCMD takes the word of a CMD write that arrives while IDLE, whether the command then ends
in an error or not, and nothing but such a write or a reset changes it. -/
def Obligations.WhatChangesLastcmd : Prop :=
  ∀ s t : State, step s = .next t →
    (∀ w, s.rst = false → s.core.phase = .idle → s.nextEvent = .host (.write 0x0008#16 w) →
      t.core.lastcmd = w) ∧
    (t.core.lastcmd ≠ s.core.lastcmd →
      (∃ w, s.core.phase = .idle ∧ s.nextEvent = .host (.write 0x0008#16 w)) ∨
      (∃ v, s.nextEvent = .host (.write 0x0010#16 v) ∧ v[2] = true) ∨
      s.nextEvent = .rst true ∨ s.rst = true)

/-- R218: OVR is set only by a CMD or register-file write while BUSY, is cleared only by W1C or
reset, and setting it changes neither ERR, ECODE, ECMD, `irq` nor the command in execution. -/
def Obligations.OverrunIsSticky : Prop :=
  ∀ s t : State, step s = .next t →
    (s.core.ovr = false → t.core.ovr = true →
      (∃ a v, s.nextEvent = .host (.write a v) ∧
        (a = 0x0008#16 ∨ (0x1000 ≤ a.toNat ∧ a.toNat < 0x2000))) ∧ s.core.busy = true ∧
      t = { s with
        inputs := s.inputs.tail
        response := some (.write false)
        core := { s.core with ovr := true } } ∧
      t.outputs.irq = s.outputs.irq) ∧
    (s.core.ovr = true → t.core.ovr = false →
      (∃ v, s.nextEvent = .host (.write 0x000C#16 v) ∧ v[3] = true) ∨
      (∃ v, s.nextEvent = .host (.write 0x0010#16 v) ∧ v[2] = true) ∨
      s.nextEvent = .rst true ∨ s.rst = true)

/-- R125, R220: what `exec` leaves unchanged, for every command, in either phase: the configuration,
the sampled level of `rst`, the bus response, the pending events, OVR, IRQEN, and every register that
is no destination of the command; while IDLE, every register; while EXEC, LASTCMD; and ECMD, but for
an error, which gives it the command word. The output pins `irq` and `rng_req` follow what `exec`
does change. -/
def Obligations.CommandFrame : Prop :=
  ∀ (i : Instr) (s t : State), exec i s = .next t →
    ∃ m : Aacore s.cfg.W, t = s.setCore m ∧ m.ovr = s.core.ovr ∧ m.irqen = s.core.irqen ∧
      (∀ q : Reg, q ∉ dests i → m.reg q = s.core.reg q) ∧
      (s.core.phase = .idle → m.regs = s.core.regs) ∧
      (m.ecmd = s.core.ecmd ∨ m.ecmd = m.lastcmd ∧ m.err = true) ∧
      (∀ job, s.core.phase = .exec job → m.lastcmd = s.core.lastcmd)

/-- R122: once a command is in execution, no register value affects its result. From two states that
differ in the register file alone, `exec` writes the same values to the same registers and agrees
in everything else. -/
def Obligations.LaterRegisterValuesDoNotMatter : Prop :=
  ∀ (i : Instr) (s t : State) (job : Job s.cfg.W) (other : Vector (BitVec s.cfg.W) nreg),
    s.core.phase = .exec job → exec i s = .next t →
    ∃ m : Aacore s.cfg.W, t = s.setCore m ∧ ∃ regs : Vector (BitVec s.cfg.W) nreg,
      exec i (s.setCore { s.core with regs := other }) =
        .next (s.setCore { m with regs := regs }) ∧
      ∀ q : Reg, regs.get q = m.reg q ∨ (regs.get q = other.get q ∧ m.reg q = s.core.reg q)

/-- R123, R251: in a safe machine a command in execution makes progress. An engine event, which is
what a step takes when no other event is pending (log entry 2, the model's choice), ends the command,
or it is an MRTEST that then waits for an answer; and every answer brings MRTEST's verdict or passes
one of its rounds, so that at most as many answers follow as there are rounds left. -/
def Obligations.EngineMakesProgress : Prop :=
  (∀ (s : State) (job : Job s.cfg.W), s.Inv → s.rst = false → s.nextEvent = .engine →
    s.core.phase = .exec job → s.core.rngPending = false →
    ∃ m : Aacore s.cfg.W,
      step s = .next { s with core := m, inputs := s.inputs.tail, response := none } ∧
      (m.phase = .idle ∨ (m.rngPending = true ∧ m.phase = .exec job ∧
        ∃ rd rn imm8, decode job.cur = .ok (.mrtest rd rn imm8)))) ∧
  (∀ (s : State) (v : BitVec s.cfg.W) (job : Job s.cfg.W), s.Inv → s.rst = false →
    s.nextEvent = .answer v → s.core.phase = .exec job → s.core.rngPending = true →
    ∃ (m : Aacore s.cfg.W) (mr mr' : MrState),
      step s = .next { s with core := m, inputs := s.inputs.tail, response := none } ∧
      job.mr = some mr ∧ m.phase = .exec { job with mr := some mr' } ∧ m.rngPending = false ∧
      mr'.rounds = mr.rounds ∧ mr.roundIdx < mr.rounds ∧
      (mr'.verdict ≠ .undecided ∨
        (mr'.roundIdx = mr.roundIdx + 1 ∧ mr'.roundIdx < mr'.rounds)))

/-- R67, R100: the host line `ld rI, value`, taken while IDLE, loads the register with the value and
changes nothing else of AACORE. -/
def Obligations.HostLdLoadsTheRegister : Prop :=
  ∀ (s : State) (i : Reg) (v : Nat) (rest : List (Event s.cfg.W)),
    s.rst = false → s.core.phase = .idle → v < 2 ^ s.cfg.W → s.inputs = hostLd s.cfg i v ++ rest →
    ∃ x : BitVec s.cfg.W, x.toNat = v ∧
      Sys2Proof.core.run s.cfg.K s = .next { s with
        inputs := rest
        response := some (.write false)
        core := { s.core with regs := s.core.regs.set i.val x i.isLt } }

/-! ## The arithmetic of the units -/

/-- R170: `egcd` is the recursion of the spec, and its result satisfies `g = gcd(a, b)` and
`a*x + b*y = g`. -/
def Obligations.EgcdIsTheRecursion : Prop :=
  (∀ b : Nat, egcd 0 b = ⟨b, 0, 1⟩) ∧
  (∀ a b : Nat, a ≠ 0 → egcd a b = ⟨(egcd (b % a) a).g,
    (egcd (b % a) a).y - ((b / a : Nat) : Int) * (egcd (b % a) a).x, (egcd (b % a) a).x⟩) ∧
  ∀ a b : Nat, (egcd a b).g = Nat.gcd a b ∧
    (a : Int) * (egcd a b).x + (b : Int) * (egcd a b).y = ((egcd a b).g : Int)

/-- R10: `inv(a, n)` is the unique x in `[0, n)` with `(a*x) mod n = 1 mod n`, for a coprime to n. -/
def Obligations.InverseIsUnique : Prop :=
  ∀ a n : Nat, 1 ≤ n → Nat.gcd a n = 1 →
    inv a n < n ∧ a * inv a n % n = 1 % n ∧ ∀ x < n, a * x % n = 1 % n → x = inv a n

/-- R146: the laws of the Montgomery domain, for odd n and a, b in `[0, n)`. -/
def Obligations.MontgomeryLaws : Prop :=
  ∀ W n a b : Nat, n % 2 = 1 → a < n → b < n →
    fromMont W (mont W (toMont W a n) (toMont W b n) n) n = a * b % n ∧
    mont W (toMont W a n) (toMont W b n) n = toMont W (a * b % n) n ∧
    mont W a (toMont W b n) n = a * b % n ∧
    toMont W (fromMont W a n) n = a

/-- R171 and G3 of 93_implementation_defined.md: for every configured width, both coefficients of EGCD
fit W-bit two's complement, and its result is never the OVERFLOW error. The spec states no proof of
it and keeps the check. -/
def Obligations.EgcdNeverOverflows : Prop :=
  ∀ (c : Config) (a b : BitVec c.W),
    -(2 : Int) ^ (c.W - 1) ≤ (egcd a.toNat b.toNat).x ∧
    (egcd a.toNat b.toNat).x < (2 : Int) ^ (c.W - 1) ∧
    -(2 : Int) ^ (c.W - 1) ≤ (egcd a.toNat b.toNat).y ∧
    (egcd a.toNat b.toNat).y < (2 : Int) ^ (c.W - 1) ∧
    ∀ rg rx ry : Reg, egcdResult rg rx ry a b ≠ .err .overflow

/-- R193: a prime passes a round with every witness, so a round that answers 0 proves its candidate
composite, and so does a verdict of 0 that MRTEST reaches at its start or by an answer. -/
def Obligations.CompositeVerdictIsCertain : Prop :=
  (∀ n a : Nat, Nat.Prime n → n ≠ 2 → 1 ≤ a → a < n → mrRound n a = true) ∧
  (∀ (n : Nat) (imm8 : BitVec 8), (mrtestStart n imm8).verdict = .composite → ¬Nat.Prime n) ∧
  (∀ (mr : MrState) (n v : Nat), n % 2 = 1 → 3 ≤ n → mr.verdict = .undecided →
    (mr.evalRound n v).verdict = .composite → ¬Nat.Prime n)

/-- R190: a k-th squaring never changes the verdict of a round. -/
def Obligations.ExtraSquaringChangesNothing : Prop :=
  ∀ n a k d : Nat, n % 2 = 1 → 3 ≤ n → 1 ≤ a → a < n → n - 1 = 2 ^ k * d → 1 ≤ k → d % 2 = 1 →
    powMod a d n ≠ 1 → powMod a d n ≠ n - 1 →
    squareLoop n k (powMod a d n) = squareLoop n (k - 1) (powMod a d n)
end

