-- ==== Sys2Proof/Laws/Arith.lean ====
section
/-! SUPPORT. The fuel that each arithmetic function starts with is enough, and what the loops keep. -/

namespace Sys2Proof.Machine

/-! ## R170's recursion -/

@[simp] theorem egcdFuel_zero_left (fuel b : Nat) : egcdFuel fuel 0 b = ⟨b, 0, 1⟩ := by
  cases fuel <;> simp [egcdFuel]

/-- More fuel than the first argument changes nothing, because that argument strictly decreases. -/
theorem egcdFuel_eq {f f' a b : Nat} (h : a ≤ f) (h' : a ≤ f') :
    egcdFuel f a b = egcdFuel f' a b := by
  induction f generalizing f' a b with
  | zero => obtain rfl : a = 0 := by omega
            simp
  | succ f ih =>
    by_cases ha : a = 0
    · subst ha; simp
    · obtain ⟨f', rfl⟩ : ∃ k, f' = k + 1 := ⟨f' - 1, by omega⟩
      have hm : b % a < a := Nat.mod_lt _ (by omega)
      simp only [egcdFuel, if_neg ha, ih (f' := f') (a := b % a) (b := a) (by omega) (by omega)]

/-! ## Bit lengths and the splitting of powers of two -/

theorem lt_two_pow_bitlen (e : Nat) : e < 2 ^ bitlen e := by
  unfold bitlen
  split
  · simp_all
  · exact Nat.lt_log2_self

/-- The splitting of R190: `m = 2^k * d` with `d` odd. -/
theorem splitTwos_spec {fuel m : Nat} (hm : 1 ≤ m) (hf : m < 2 ^ fuel) :
    m = 2 ^ (splitTwos fuel m).1 * (splitTwos fuel m).2 ∧ (splitTwos fuel m).2 % 2 = 1 := by
  induction fuel generalizing m with
  | zero => simp at hf; omega
  | succ fuel ih =>
    unfold splitTwos
    split
    · rename_i h0
      obtain ⟨h1, h2⟩ := ih (m := m / 2) (by omega) (by rw [pow_succ] at hf; omega)
      refine ⟨?_, h2⟩
      show m = 2 ^ ((splitTwos fuel (m / 2)).1 + 1) * (splitTwos fuel (m / 2)).2
      rw [pow_succ, mul_comm (2 ^ _) 2, mul_assoc, ← h1]
      omega
    · exact ⟨by simp, by omega⟩

/-! ## Square-and-multiply -/

/-- What R161's loop keeps: the accumulator raised to the bits still to come, times the base raised
to their value. -/
theorem powLoop_modEq (a e n i r : Nat) :
    powLoop a e n i r ≡ r ^ 2 ^ i * a ^ (e % 2 ^ i) [MOD n] := by
  induction i generalizing r with
  | zero => simp [powLoop, Nat.mod_one, Nat.ModEq.refl]
  | succ i ih =>
    have hbit : e % 2 ^ (i + 1) = e % 2 ^ i + 2 ^ i * (e.testBit i).toNat := by
      rw [pow_succ, Nat.mod_mul, Nat.toNat_testBit]
    have hpow : r ^ 2 ^ (i + 1) * a ^ (e % 2 ^ (i + 1)) =
        (r ^ 2 * a ^ (e.testBit i).toNat) ^ 2 ^ i * a ^ (e % 2 ^ i) := by
      rw [hbit, mul_pow, ← pow_mul, ← pow_mul, pow_add a, pow_succ' 2 i, mul_comm (2 ^ i)]
      ring
    have hsq : r * r % n ≡ r ^ 2 [MOD n] := by
      rw [sq]; exact Nat.mod_modEq _ _
    unfold powLoop
    rw [hpow]
    refine (ih _).trans (Nat.ModEq.mul_right _ (Nat.ModEq.pow _ ?_))
    cases e.testBit i
    · simpa using hsq
    · simpa using (Nat.mod_modEq _ n).trans (hsq.mul (Nat.mod_modEq a n))

theorem powLoop_lt {a e n i r : Nat} (hr : r < n) : powLoop a e n i r < n := by
  induction i generalizing r with
  | zero => exact hr
  | succ i ih =>
    unfold powLoop
    apply ih
    split <;> exact Nat.mod_lt _ (by omega)

end Sys2Proof.Machine
end

