-- ==== Sys2Proof/Laws/Bus.lean ====
section
/-! SUPPORT. The address map, one lemma a direction, and the words of a register value. -/

namespace Sys2Proof.Machine

/-! ## The address map (R68, R69) -/

@[simp] theorem decodeAddr_cmd (K : Nat) : decodeAddr K 0x0008#16 = some .cmd := rfl
@[simp] theorem decodeAddr_status (K : Nat) : decodeAddr K 0x000C#16 = some .status := rfl
@[simp] theorem decodeAddr_ctrl (K : Nat) : decodeAddr K 0x0010#16 = some .ctrl := rfl

theorem eq_of_decodeAddr_cmd {K : Nat} {a : Addr} (h : decodeAddr K a = some .cmd) :
    a = 0x0008#16 := by
  unfold decodeAddr at h
  repeat' split at h
  all_goals first | (simp at h; done) | assumption

theorem eq_of_decodeAddr_status {K : Nat} {a : Addr} (h : decodeAddr K a = some .status) :
    a = 0x000C#16 := by
  unfold decodeAddr at h
  repeat' split at h
  all_goals first | (simp at h; done) | assumption

theorem eq_of_decodeAddr_ctrl {K : Nat} {a : Addr} (h : decodeAddr K a = some .ctrl) :
    a = 0x0010#16 := by
  unfold decodeAddr at h
  repeat' split at h
  all_goals first | (simp at h; done) | assumption

/-- The address of word `j` of `R[i]` names it (R69). -/
theorem decodeAddr_window {K : Nat} (hK : K ≤ 64) {a : Addr} {i : Reg} {j : Nat} (hj : j < K)
    (ha : a.toNat = 0x1000 + 0x100 * i.val + 4 * j) : decodeAddr K a = some (.window i j) := by
  have hi := i.isLt
  have e0 : a.extractLsb' 0 2 = 0 := BitVec.eq_of_toNat_eq (by simp [ha]; omega)
  have e1 : (a.extractLsb' 2 6).toNat = j := by simp [ha, Nat.shiftRight_eq_div_pow]; omega
  have e2 : (a.extractLsb' 8 4).toNat = i.val := by
    simp [ha, Nat.shiftRight_eq_div_pow]; omega
  have e3 : a.extractLsb' 12 4 = 1 :=
    BitVec.eq_of_toNat_eq (by simp [ha, Nat.shiftRight_eq_div_pow]; omega)
  have e2' : (a.extractLsb' 8 4).toFin = i := Fin.ext e2
  have hne : ∀ b : Addr, b.toNat < 0x1000 → a ≠ b := by rintro b hb rfl; omega
  unfold decodeAddr
  rw [if_neg (by simp [e0]), if_neg (hne _ (by decide)), if_neg (hne _ (by decide)),
    if_neg (hne _ (by decide)), if_neg (hne _ (by decide)), if_neg (hne _ (by decide)),
    if_neg (hne _ (by decide)), if_pos e3]
  show (if (a.extractLsb' 2 6).toNat < K then
    some (Target.window (a.extractLsb' 8 4).toFin (a.extractLsb' 2 6).toNat) else none) = _
  rw [if_pos (by omega), e2', e1]

/-- What an address that names a word of a register looks like (R69). -/
theorem toNat_of_decodeAddr_window {K : Nat} {a : Addr} {i : Reg} {j : Nat}
    (h : decodeAddr K a = some (.window i j)) : 0x1000 ≤ a.toNat ∧ a.toNat < 0x2000 ∧
      a.toNat / 0x100 % 0x10 = i.val ∧ j = a.toNat % 0x100 / 4 ∧ j < K := by
  unfold decodeAddr at h
  split at h
  · simp at h
  iterate 6
    split at h
    · simp at h
  split at h
  · rename_i h1
    simp only at h
    split at h
    · rename_i h2
      obtain ⟨h3, h4⟩ := Target.window.inj (Option.some.inj h)
      have h1 := congrArg BitVec.toNat h1
      have h3 := congrArg Fin.val h3
      change (a.extractLsb' 8 4).toNat = _ at h3
      have := a.isLt
      simp [Nat.shiftRight_eq_div_pow] at h1 h2 h3 h4
      omega
    · simp at h
  · simp at h

/-- The addresses that name nothing (R65, R70). -/
theorem decodeAddr_eq_none {K : Nat} {a : Addr} (h : a.toNat % 4 ≠ 0 ∨
    (0x0018 ≤ a.toNat ∧ a.toNat < 0x1000) ∨ 0x2000 ≤ a.toNat ∨
    (0x1000 ≤ a.toNat ∧ K ≤ a.toNat % 0x100 / 4)) : decodeAddr K a = none := by
  unfold decodeAddr
  split
  · rfl
  rename_i h0
  have h0 := congrArg BitVec.toNat (not_not.1 h0)
  simp at h0
  have hne : ∀ b : Addr, b.toNat < 0x18 → b.toNat % 4 = 0 → a ≠ b := by
    rintro b hb hb' rfl; omega
  rw [if_neg (hne _ (by decide) (by decide)), if_neg (hne _ (by decide) (by decide)),
    if_neg (hne _ (by decide) (by decide)), if_neg (hne _ (by decide) (by decide)),
    if_neg (hne _ (by decide) (by decide)), if_neg (hne _ (by decide) (by decide))]
  split
  · rename_i h1
    have h1 := congrArg BitVec.toNat h1
    have := a.isLt
    simp [Nat.shiftRight_eq_div_pow] at h1 ⊢
    omega
  · rfl

/-! ## Words of a register value (R67) -/

/-- A word write replaces the bits of that word alone (R63). -/
theorem getLsbD_withWord {W : Nat} (v : BitVec W) (j : Nat) (d : Word) (b : Nat)
    (h : 32 * j + 32 ≤ W) : (withWord v j d).getLsbD b =
      if 32 * j ≤ b ∧ b < 32 * j + 32 then d.getLsbD (b - 32 * j) else v.getLsbD b := by
  simp only [withWord, BitVec.getLsbD_or, BitVec.getLsbD_and, BitVec.getLsbD_not,
    BitVec.getLsbD_shiftLeft, BitVec.getLsbD_setWidth, BitVec.getLsbD_allOnes]
  rcases Nat.lt_or_ge b (32 * j) with h1 | h1
  · have : b < W := by omega
    simp [h1, this, show ¬32 * j ≤ b by omega]
  · rcases Nat.lt_or_ge b (32 * j + 32) with h2 | h2
    · simp [h1, h2, show b < W by omega, show ¬b < 32 * j by omega, show b - 32 * j < W by omega,
        show b - 32 * j < 32 by omega]
    · rcases Nat.lt_or_ge b W with h3 | h3
      · simp [h1, h3, show ¬b < 32 * j by omega, show ¬b < 32 * j + 32 by omega,
          show ¬b - 32 * j < 32 by omega, BitVec.getLsbD_of_ge d (b - 32 * j) (by omega)]
      · simp [h3, show ¬b < W by omega, show ¬b < 32 * j + 32 by omega]

theorem toNat_wordOf {W : Nat} (v : BitVec W) (j : Nat) :
    (wordOf v j).toNat = v.toNat / 2 ^ (32 * j) % 2 ^ 32 := by
  simp [wordOf, Nat.shiftRight_eq_div_pow]

end Sys2Proof.Machine
end

