-- ==== Sys2Proof/Laws/Decode.lean ====
section
/-! SUPPORT. The command word as an opcode byte and six 4-bit fields (R90), what the decoder reads
from such a word, and every encoding in that form. -/

namespace Sys2Proof

/-- The word of R90's field table: `OP`, then FA to FF. -/
def sixFields (op : BitVec 8) (a b c d e f : BitVec 4) : Word :=
  op ++ a ++ b ++ c ++ d ++ e ++ f

section
variable (op : BitVec 8) (a b c d e f : BitVec 4)

@[simp] theorem opField_sixFields : opField (sixFields op a b c d e f) = op := by
  ext i hi
  simp only [opField, sixFields, BitVec.getElem_extractLsb', BitVec.getLsbD_append]
  interval_cases i <;> simp

@[simp] theorem fieldA_sixFields : fieldA (sixFields op a b c d e f) = a.toFin := by
  refine congrArg BitVec.toFin ?_
  ext i hi
  simp only [sixFields, BitVec.getElem_extractLsb', BitVec.getLsbD_append]
  interval_cases i <;> simp

@[simp] theorem fieldB_sixFields : fieldB (sixFields op a b c d e f) = b.toFin := by
  refine congrArg BitVec.toFin ?_
  ext i hi
  simp only [sixFields, BitVec.getElem_extractLsb', BitVec.getLsbD_append]
  interval_cases i <;> simp

@[simp] theorem fieldC_sixFields : fieldC (sixFields op a b c d e f) = c.toFin := by
  refine congrArg BitVec.toFin ?_
  ext i hi
  simp only [sixFields, BitVec.getElem_extractLsb', BitVec.getLsbD_append]
  interval_cases i <;> simp

@[simp] theorem fieldD_sixFields : fieldD (sixFields op a b c d e f) = d.toFin := by
  refine congrArg BitVec.toFin ?_
  ext i hi
  simp only [sixFields, BitVec.getElem_extractLsb', BitVec.getLsbD_append]
  interval_cases i <;> simp

@[simp] theorem fieldE_sixFields : fieldE (sixFields op a b c d e f) = e.toFin := by
  refine congrArg BitVec.toFin ?_
  ext i hi
  simp only [sixFields, BitVec.getElem_extractLsb', BitVec.getLsbD_append]
  interval_cases i <;> simp

@[simp] theorem immField_sixFields : immField (sixFields op a b c d e f) = e ++ f := by
  refine BitVec.eq_of_getLsbD_eq fun i hi => ?_
  simp only [immField, sixFields, BitVec.getLsbD_extractLsb', BitVec.getLsbD_append]
  interval_cases i <;> simp

theorem low4_sixFields : (sixFields op a b c d e f).extractLsb' 0 4 = f := by
  ext i hi
  simp only [sixFields, BitVec.getElem_extractLsb', BitVec.getLsbD_append]
  interval_cases i <;> simp

theorem low8_sixFields : (sixFields op a b c d e f).extractLsb' 0 8 = e ++ f :=
  immField_sixFields op a b c d e f

theorem low12_sixFields : (sixFields op a b c d e f).extractLsb' 0 12 = d ++ e ++ f := by
  refine BitVec.eq_of_getLsbD_eq fun i hi => ?_
  simp only [sixFields, BitVec.getLsbD_extractLsb', BitVec.getLsbD_append]
  interval_cases i <;> simp

theorem low24_sixFields :
    (sixFields op a b c d e f).extractLsb' 0 24 = a ++ b ++ c ++ d ++ e ++ f := by
  refine BitVec.eq_of_getLsbD_eq fun i hi => ?_
  simp only [sixFields, BitVec.getLsbD_extractLsb', BitVec.getLsbD_append]
  interval_cases i <;> simp

theorem mid8_sixFields : (sixFields op a b c d e f).extractLsb' 8 8 = c ++ d := by
  refine BitVec.eq_of_getLsbD_eq fun i hi => ?_
  simp only [sixFields, BitVec.getLsbD_extractLsb', BitVec.getLsbD_append]
  interval_cases i <;> simp

end

/-- Every word is its opcode byte and its six fields. -/
theorem sixFields_eta (w : Word) :
    sixFields (opField w) (w.extractLsb' 20 4) (w.extractLsb' 16 4) (w.extractLsb' 12 4)
      (w.extractLsb' 8 4) (w.extractLsb' 4 4) (w.extractLsb' 0 4) = w := by
  refine BitVec.eq_of_getLsbD_eq fun i hi => ?_
  simp only [sixFields, opField, BitVec.getLsbD_append, BitVec.getLsbD_extractLsb']
  interval_cases i <;> simp

theorem exists_sixFields (w : Word) : ∃ op a b c d e f, w = sixFields op a b c d e f :=
  ⟨_, _, _, _, _, _, _, (sixFields_eta w).symm⟩

/-- The immediate is its two halves. -/
theorem imm8_eta (b : BitVec 8) : b.extractLsb' 4 4 ++ b.extractLsb' 0 4 = b := by
  refine BitVec.eq_of_getLsbD_eq fun i hi => ?_
  simp only [BitVec.getLsbD_append, BitVec.getLsbD_extractLsb']
  interval_cases i <;> simp

theorem hi4_append (a b : BitVec 4) : (a ++ b).extractLsb' 4 4 = a := by
  refine BitVec.eq_of_getLsbD_eq fun i hi => ?_
  simp only [BitVec.getLsbD_append, BitVec.getLsbD_extractLsb']
  interval_cases i <;> simp

theorem lo4_append (a b : BitVec 4) : (a ++ b).extractLsb' 0 4 = b := by
  refine BitVec.eq_of_getLsbD_eq fun i hi => ?_
  simp only [BitVec.getLsbD_append, BitVec.getLsbD_extractLsb']
  interval_cases i <;> simp

/-- Two reserved fields are zero when the byte they make is. -/
theorem append2_eq_zero {a b : BitVec 4} : a ++ b = 0#8 ↔ a = 0#4 ∧ b = 0#4 := by
  constructor
  · intro h
    have h1 := congrArg (BitVec.extractLsb' 0 4) h
    have h2 := congrArg (BitVec.extractLsb' 4 4) h
    simp only [BitVec.extractLsb'_append_eq_ite] at h1 h2
    simp_all
  · rintro ⟨rfl, rfl⟩; rfl

/-- Three reserved fields are zero when the 12 bits they make are. -/
theorem append3_eq_zero {a b c : BitVec 4} :
    a ++ b ++ c = 0#12 ↔ a = 0#4 ∧ b = 0#4 ∧ c = 0#4 := by
  constructor
  · intro h
    have h1 := congrArg (BitVec.extractLsb' 0 4) h
    have h2 := congrArg (BitVec.extractLsb' 4 4) h
    have h3 := congrArg (BitVec.extractLsb' 8 4) h
    simp only [BitVec.extractLsb'_append_eq_ite] at h1 h2 h3
    simp_all
  · rintro ⟨rfl, rfl, rfl⟩; rfl

/-- Six reserved fields are zero when the 24 bits they make are. -/
theorem append6_eq_zero {a b c d e f : BitVec 4} : a ++ b ++ c ++ d ++ e ++ f = 0#24 ↔
    a = 0#4 ∧ b = 0#4 ∧ c = 0#4 ∧ d = 0#4 ∧ e = 0#4 ∧ f = 0#4 := by
  constructor
  · intro h
    have h1 := congrArg (BitVec.extractLsb' 0 4) h
    have h2 := congrArg (BitVec.extractLsb' 4 4) h
    have h3 := congrArg (BitVec.extractLsb' 8 4) h
    have h4 := congrArg (BitVec.extractLsb' 12 4) h
    have h5 := congrArg (BitVec.extractLsb' 16 4) h
    have h6 := congrArg (BitVec.extractLsb' 20 4) h
    simp only [BitVec.extractLsb'_append_eq_ite] at h1 h2 h3 h4 h5 h6
    simp_all
  · rintro ⟨rfl, rfl, rfl, rfl, rfl, rfl⟩; rfl

@[simp] theorem regBits_toFin (b : BitVec 4) : regBits b.toFin = b := rfl

@[simp] theorem toFin_regBits (r : Reg) : (regBits r).toFin = r := rfl

/-- The six fields of every encoding (R91). -/
theorem encode_eq_sixFields (i : Instr) : encode i = match i with
    | .nop => sixFields 0x00#8 0 0 0 0 0 0
    | .montmul rd ra rb rn =>
      sixFields 0x10#8 (regBits rd) (regBits ra) (regBits rb) (regBits rn) 0 0
    | .tomont rd ra rn => sixFields 0x11#8 (regBits rd) (regBits ra) (regBits rn) 0 0 0
    | .frommont rd ra rn => sixFields 0x12#8 (regBits rd) (regBits ra) (regBits rn) 0 0 0
    | .modmul rd ra rb rn =>
      sixFields 0x13#8 (regBits rd) (regBits ra) (regBits rb) (regBits rn) 0 0
    | .modexp rd ra re rn =>
      sixFields 0x20#8 (regBits rd) (regBits ra) (regBits re) (regBits rn) 0 0
    | .egcd rg rx ry ra rb =>
      sixFields 0x30#8 (regBits rg) (regBits rx) (regBits ry) (regBits ra) (regBits rb) 0
    | .gcd rd ra rb => sixFields 0x31#8 (regBits rd) (regBits ra) (regBits rb) 0 0 0
    | .modinv rd ra rn => sixFields 0x32#8 (regBits rd) (regBits ra) (regBits rn) 0 0 0
    | .mrround rd rn ra => sixFields 0x40#8 (regBits rd) (regBits rn) (regBits ra) 0 0 0
    | .mrtest rd rn imm8 =>
      sixFields 0x41#8 (regBits rd) (regBits rn) 0 0 (imm8.extractLsb' 4 4)
        (imm8.extractLsb' 0 4) := by
  cases i with
  | nop => decide
  | _ =>
    simp only [encode, sixFields]
    ext i hi
    simp only [BitVec.getElem_append, BitVec.getElem_extractLsb']
    interval_cases i <;> simp

/-- What an accepted word says of its reserved field. -/
theorem ifZero_eq_ok {w : Word} {lo len : Nat} {i j : Instr} (h : ifZero w lo len i = .ok j) :
    w.extractLsb' lo len = 0 ∧ i = j := by
  unfold ifZero at h
  split at h
  · rename_i hz
    exact ⟨hz, by simpa using h⟩
  · simp at h

end Sys2Proof
end

