-- ==== Sys2Proof/Laws/State.lean ====
section
/-! SUPPORT. What each update of the state does to each field: one lemma a field, true by
definition, so that no proof unfolds an update. -/

namespace Sys2Proof.Machine

variable {W : Nat} (m : Aacore W)

@[simp] theorem Aacore.setReg_regs (r : Reg) (v : BitVec W) : (m.setReg r v).regs = m.regs.set r.val v r.isLt := rfl
@[simp] theorem Aacore.setReg_phase (r : Reg) (v : BitVec W) : (m.setReg r v).phase = m.phase := rfl
@[simp] theorem Aacore.setReg_lastcmd (r : Reg) (v : BitVec W) : (m.setReg r v).lastcmd = m.lastcmd := rfl
@[simp] theorem Aacore.setReg_done (r : Reg) (v : BitVec W) : (m.setReg r v).done = m.done := rfl
@[simp] theorem Aacore.setReg_err (r : Reg) (v : BitVec W) : (m.setReg r v).err = m.err := rfl
@[simp] theorem Aacore.setReg_ovr (r : Reg) (v : BitVec W) : (m.setReg r v).ovr = m.ovr := rfl
@[simp] theorem Aacore.setReg_ecode (r : Reg) (v : BitVec W) : (m.setReg r v).ecode = m.ecode := rfl
@[simp] theorem Aacore.setReg_irqen (r : Reg) (v : BitVec W) : (m.setReg r v).irqen = m.irqen := rfl
@[simp] theorem Aacore.setReg_ecmd (r : Reg) (v : BitVec W) : (m.setReg r v).ecmd = m.ecmd := rfl
@[simp] theorem Aacore.setReg_rngPending (r : Reg) (v : BitVec W) : (m.setReg r v).rngPending = m.rngPending := rfl
@[simp] theorem Aacore.setReg_rngLo (r : Reg) (v : BitVec W) : (m.setReg r v).rngLo = m.rngLo := rfl
@[simp] theorem Aacore.setReg_rngHi (r : Reg) (v : BitVec W) : (m.setReg r v).rngHi = m.rngHi := rfl

@[simp] theorem Aacore.raise_regs (c : ErrorCode) : (m.raise c).regs = m.regs := rfl
@[simp] theorem Aacore.raise_phase (c : ErrorCode) : (m.raise c).phase = .idle := rfl
@[simp] theorem Aacore.raise_lastcmd (c : ErrorCode) : (m.raise c).lastcmd = m.lastcmd := rfl
@[simp] theorem Aacore.raise_done (c : ErrorCode) : (m.raise c).done = false := rfl
@[simp] theorem Aacore.raise_err (c : ErrorCode) : (m.raise c).err = true := rfl
@[simp] theorem Aacore.raise_ovr (c : ErrorCode) : (m.raise c).ovr = m.ovr := rfl
@[simp] theorem Aacore.raise_ecode (c : ErrorCode) : (m.raise c).ecode = some c := rfl
@[simp] theorem Aacore.raise_irqen (c : ErrorCode) : (m.raise c).irqen = m.irqen := rfl
@[simp] theorem Aacore.raise_ecmd (c : ErrorCode) : (m.raise c).ecmd = m.lastcmd := rfl
@[simp] theorem Aacore.raise_rngPending (c : ErrorCode) : (m.raise c).rngPending = false := rfl
@[simp] theorem Aacore.raise_rngLo (c : ErrorCode) : (m.raise c).rngLo = 0 := rfl
@[simp] theorem Aacore.raise_rngHi (c : ErrorCode) : (m.raise c).rngHi = 0 := rfl

@[simp] theorem Aacore.overrun_regs : (m.overrun).regs = m.regs := rfl
@[simp] theorem Aacore.overrun_phase : (m.overrun).phase = m.phase := rfl
@[simp] theorem Aacore.overrun_lastcmd : (m.overrun).lastcmd = m.lastcmd := rfl
@[simp] theorem Aacore.overrun_done : (m.overrun).done = m.done := rfl
@[simp] theorem Aacore.overrun_err : (m.overrun).err = m.err := rfl
@[simp] theorem Aacore.overrun_ovr : (m.overrun).ovr = true := rfl
@[simp] theorem Aacore.overrun_ecode : (m.overrun).ecode = m.ecode := rfl
@[simp] theorem Aacore.overrun_irqen : (m.overrun).irqen = m.irqen := rfl
@[simp] theorem Aacore.overrun_ecmd : (m.overrun).ecmd = m.ecmd := rfl
@[simp] theorem Aacore.overrun_rngPending : (m.overrun).rngPending = m.rngPending := rfl
@[simp] theorem Aacore.overrun_rngLo : (m.overrun).rngLo = m.rngLo := rfl
@[simp] theorem Aacore.overrun_rngHi : (m.overrun).rngHi = m.rngHi := rfl

@[simp] theorem Aacore.latchCommand_regs (w : Word) : (m.latchCommand w).regs = m.regs := rfl
@[simp] theorem Aacore.latchCommand_phase (w : Word) : (m.latchCommand w).phase = m.phase := rfl
@[simp] theorem Aacore.latchCommand_lastcmd (w : Word) : (m.latchCommand w).lastcmd = w := rfl
@[simp] theorem Aacore.latchCommand_done (w : Word) : (m.latchCommand w).done = false := rfl
@[simp] theorem Aacore.latchCommand_err (w : Word) : (m.latchCommand w).err = false := rfl
@[simp] theorem Aacore.latchCommand_ovr (w : Word) : (m.latchCommand w).ovr = m.ovr := rfl
@[simp] theorem Aacore.latchCommand_ecode (w : Word) : (m.latchCommand w).ecode = none := rfl
@[simp] theorem Aacore.latchCommand_irqen (w : Word) : (m.latchCommand w).irqen = m.irqen := rfl
@[simp] theorem Aacore.latchCommand_ecmd (w : Word) : (m.latchCommand w).ecmd = m.ecmd := rfl
@[simp] theorem Aacore.latchCommand_rngPending (w : Word) : (m.latchCommand w).rngPending = m.rngPending := rfl
@[simp] theorem Aacore.latchCommand_rngLo (w : Word) : (m.latchCommand w).rngLo = m.rngLo := rfl
@[simp] theorem Aacore.latchCommand_rngHi (w : Word) : (m.latchCommand w).rngHi = m.rngHi := rfl

@[simp] theorem Aacore.writeStatus_regs (v : Word) : (m.writeStatus v).regs = m.regs := rfl
@[simp] theorem Aacore.writeStatus_phase (v : Word) : (m.writeStatus v).phase = m.phase := rfl
@[simp] theorem Aacore.writeStatus_lastcmd (v : Word) : (m.writeStatus v).lastcmd = m.lastcmd := rfl
@[simp] theorem Aacore.writeStatus_done (v : Word) : (m.writeStatus v).done = (m.done && !v[1]) := rfl
@[simp] theorem Aacore.writeStatus_err (v : Word) : (m.writeStatus v).err = (m.err && !v[2]) := rfl
@[simp] theorem Aacore.writeStatus_ovr (v : Word) : (m.writeStatus v).ovr = (m.ovr && !v[3]) := rfl
@[simp] theorem Aacore.writeStatus_ecode (v : Word) : (m.writeStatus v).ecode = (if v[2] then none else m.ecode) := rfl
@[simp] theorem Aacore.writeStatus_irqen (v : Word) : (m.writeStatus v).irqen = m.irqen := rfl
@[simp] theorem Aacore.writeStatus_ecmd (v : Word) : (m.writeStatus v).ecmd = m.ecmd := rfl
@[simp] theorem Aacore.writeStatus_rngPending (v : Word) : (m.writeStatus v).rngPending = m.rngPending := rfl
@[simp] theorem Aacore.writeStatus_rngLo (v : Word) : (m.writeStatus v).rngLo = m.rngLo := rfl
@[simp] theorem Aacore.writeStatus_rngHi (v : Word) : (m.writeStatus v).rngHi = m.rngHi := rfl

@[simp] theorem Aacore.request_regs (n : BitVec W) : (m.request n).regs = m.regs := rfl
@[simp] theorem Aacore.request_phase (n : BitVec W) : (m.request n).phase = m.phase := rfl
@[simp] theorem Aacore.request_lastcmd (n : BitVec W) : (m.request n).lastcmd = m.lastcmd := rfl
@[simp] theorem Aacore.request_done (n : BitVec W) : (m.request n).done = m.done := rfl
@[simp] theorem Aacore.request_err (n : BitVec W) : (m.request n).err = m.err := rfl
@[simp] theorem Aacore.request_ovr (n : BitVec W) : (m.request n).ovr = m.ovr := rfl
@[simp] theorem Aacore.request_ecode (n : BitVec W) : (m.request n).ecode = m.ecode := rfl
@[simp] theorem Aacore.request_irqen (n : BitVec W) : (m.request n).irqen = m.irqen := rfl
@[simp] theorem Aacore.request_ecmd (n : BitVec W) : (m.request n).ecmd = m.ecmd := rfl
@[simp] theorem Aacore.request_rngPending (n : BitVec W) : (m.request n).rngPending = true := rfl
@[simp] theorem Aacore.request_rngLo (n : BitVec W) : (m.request n).rngLo = 1 := rfl
@[simp] theorem Aacore.request_rngHi (n : BitVec W) : (m.request n).rngHi = n := rfl

@[simp] theorem Aacore.withdraw_regs : (m.withdraw).regs = m.regs := rfl
@[simp] theorem Aacore.withdraw_phase : (m.withdraw).phase = m.phase := rfl
@[simp] theorem Aacore.withdraw_lastcmd : (m.withdraw).lastcmd = m.lastcmd := rfl
@[simp] theorem Aacore.withdraw_done : (m.withdraw).done = m.done := rfl
@[simp] theorem Aacore.withdraw_err : (m.withdraw).err = m.err := rfl
@[simp] theorem Aacore.withdraw_ovr : (m.withdraw).ovr = m.ovr := rfl
@[simp] theorem Aacore.withdraw_ecode : (m.withdraw).ecode = m.ecode := rfl
@[simp] theorem Aacore.withdraw_irqen : (m.withdraw).irqen = m.irqen := rfl
@[simp] theorem Aacore.withdraw_ecmd : (m.withdraw).ecmd = m.ecmd := rfl
@[simp] theorem Aacore.withdraw_rngPending : (m.withdraw).rngPending = false := rfl
@[simp] theorem Aacore.withdraw_rngLo : (m.withdraw).rngLo = 0 := rfl
@[simp] theorem Aacore.withdraw_rngHi : (m.withdraw).rngHi = 0 := rfl

variable (s : State)

@[simp] theorem State.setCore_cfg (x : Aacore s.cfg.W) : (s.setCore x).cfg = s.cfg := rfl
@[simp] theorem State.setCore_core (x : Aacore s.cfg.W) : (s.setCore x).core = x := rfl
@[simp] theorem State.setCore_rst (x : Aacore s.cfg.W) : (s.setCore x).rst = s.rst := rfl
@[simp] theorem State.setCore_inputs (x : Aacore s.cfg.W) : (s.setCore x).inputs = s.inputs := rfl
@[simp] theorem State.setCore_response (x : Aacore s.cfg.W) : (s.setCore x).response = s.response := rfl

@[simp] theorem State.pop_cfg : (s.pop).cfg = s.cfg := rfl
@[simp] theorem State.pop_core : (s.pop).core = s.core := rfl
@[simp] theorem State.pop_rst : (s.pop).rst = s.rst := rfl
@[simp] theorem State.pop_inputs : (s.pop).inputs = s.inputs.tail := rfl
@[simp] theorem State.pop_response : (s.pop).response = none := rfl

@[simp] theorem State.resetCycle_cfg : (s.resetCycle).cfg = s.cfg := rfl
@[simp] theorem State.resetCycle_core : (s.resetCycle).core = Aacore.reset s.cfg.W := rfl
@[simp] theorem State.resetCycle_rst : (s.resetCycle).rst = true := rfl
@[simp] theorem State.resetCycle_inputs : (s.resetCycle).inputs = s.inputs := rfl
@[simp] theorem State.resetCycle_response : (s.resetCycle).response = s.response := rfl

@[simp] theorem State.hostRead_cfg (a : Addr) : (s.hostRead a).cfg = s.cfg := rfl
@[simp] theorem State.hostRead_core (a : Addr) : (s.hostRead a).core = s.core := rfl
@[simp] theorem State.hostRead_rst (a : Addr) : (s.hostRead a).rst = s.rst := rfl
@[simp] theorem State.hostRead_inputs (a : Addr) : (s.hostRead a).inputs = s.inputs := rfl
@[simp] theorem State.hostRead_response (a : Addr) : (s.hostRead a).response = some (match decodeAddr s.cfg.K a with
      | none => .read true 0
      | some t => .read false (s.readValue t)) := rfl

end Sys2Proof.Machine
end

