-- ==== Sys2Proof/Laws/Ops.lean ====
section
/-! SUPPORT. What each shared operation can do, said once: the register file, commit, acceptance,
completion, abort, the CTRL write, and the command lifecycle. -/

namespace Sys2Proof.Machine

variable {W : Nat}

@[simp] theorem Aacore.busy_idle (m : Aacore W) (h : m.phase = .idle) : m.busy = false := by
  simp [busy, h]

@[simp] theorem Aacore.busy_exec (m : Aacore W) {job : Job W} (h : m.phase = .exec job) :
    m.busy = true := by
  simp [busy, h]

theorem Aacore.busy_eq_true (m : Aacore W) : m.busy = true ↔ ∃ job, m.phase = .exec job := by
  cases h : m.phase <;> simp [busy, h]

theorem Aacore.busy_eq_false (m : Aacore W) : m.busy = false ↔ m.phase = .idle := by
  cases h : m.phase <;> simp [busy, h]

/-! ## The register file -/

theorem Aacore.reg_setReg (m : Aacore W) (r q : Reg) (v : BitVec W) :
    (m.setReg r v).reg q = if q = r then v else m.reg q := by
  simp only [reg, setReg, Vector.get_eq_getElem, Vector.getElem_set, Fin.ext_iff]
  by_cases h : r.val = q.val <;> simp [h, eq_comm]

@[simp] theorem Aacore.reg_setReg_self (m : Aacore W) (r : Reg) (v : BitVec W) :
    (m.setReg r v).reg r = v := by
  simp [reg_setReg]

/-- Two states agree on the register file when they agree on every register. -/
theorem Aacore.regs_ext {m m' : Aacore W} (h : ∀ r, m.reg r = m'.reg r) : m.regs = m'.regs := by
  apply Vector.ext
  intro i hi
  exact h ⟨i, hi⟩

/-- A commit writes registers and nothing else. -/
theorem Aacore.commit_eq (m : Aacore W) (ws : List (Reg × BitVec W)) :
    m.commit ws = { m with regs := (m.commit ws).regs } := by
  induction ws generalizing m with
  | nil => rfl
  | cons w ws ih =>
    have h : m.commit (w :: ws) = (m.setReg w.1 w.2).commit ws := rfl
    rw [h, ih]
    rfl

@[simp] theorem Aacore.commit_nil (m : Aacore W) : m.commit [] = m := rfl

@[simp] theorem Aacore.commit_cons (m : Aacore W) (r : Reg) (v : BitVec W)
    (ws : List (Reg × BitVec W)) : m.commit ((r, v) :: ws) = (m.setReg r v).commit ws := rfl

/-- A register that no destination names keeps its value at a commit. -/
theorem Aacore.commit_reg_of_not_mem (m : Aacore W) (ws : List (Reg × BitVec W)) (q : Reg)
    (h : ∀ w ∈ ws, w.1 ≠ q) : (m.commit ws).reg q = m.reg q := by
  induction ws generalizing m with
  | nil => rfl
  | cons w ws ih =>
    obtain ⟨r, v⟩ := w
    rw [commit_cons, ih _ (fun x hx => h x (List.mem_cons_of_mem _ hx)), reg_setReg, if_neg]
    exact fun e => h (r, v) (by simp) e.symm

/-! ## Acceptance, completion, abort, CTRL -/

/-- A failed check ends the command at acceptance with its error (R120, R211). -/
theorem Aacore.accept_error (m : Aacore W) (i : Instr) (c : ErrorCode) (mr : Option MrState) :
    m.accept i (some c) mr = (m.latchCommand (encode i)).raise c := rfl

/-- A command that passes its check is in execution, with its operands captured (R120). -/
theorem Aacore.accept_ok (m : Aacore W) (i : Instr) (mr : Option MrState) :
    m.accept i none mr =
      { m.latchCommand (encode i) with
        phase := .exec { cur := encode i, latches := m.capture (sources i), mr := mr } } := rfl

theorem Aacore.complete_error (m : Aacore W) (c : ErrorCode) :
    m.complete (.err c) = m.raise c := rfl

theorem Aacore.complete_ok (m : Aacore W) (ws : List (Reg × BitVec W)) :
    m.complete (.ok ws) = { m.commit ws with phase := .idle, done := true } := rfl

/-- A completion ends the command: it writes its destinations and sets DONE, or it records an error
and writes no register (R124, R220). -/
theorem Aacore.complete_cases (m : Aacore W) (r : CommandResult W) :
    (∃ ws, r = .ok ws ∧
      m.complete r = { m with regs := (m.commit ws).regs, phase := .idle, done := true }) ∨
    (∃ c, r = .err c ∧ m.complete r = m.raise c) := by
  cases r with
  | ok ws =>
    refine .inl ⟨ws, rfl, ?_⟩
    rw [complete_ok, commit_eq]
  | err c => exact .inr ⟨c, rfl, rfl⟩

theorem Aacore.abort_idle (m : Aacore W) (h : m.phase = .idle) : m.abort = m := by
  simp [abort, h]

theorem Aacore.abort_exec (m : Aacore W) {job : Job W} (h : m.phase = .exec job) :
    m.abort = m.raise .aborted := by
  simp [abort, h]

/-- A CTRL write is a soft reset, or it sets IRQEN and may abort the command in execution (R37). -/
theorem Aacore.writeCtrl_cases (m : Aacore W) (v : Word) :
    (v[2] = true ∧ m.writeCtrl v = Aacore.reset W) ∨
    (v[2] = false ∧ (v[1] = false ∨ m.phase = .idle) ∧
      m.writeCtrl v = { m with irqen := v[0] }) ∨
    (v[2] = false ∧ v[1] = true ∧ (∃ job, m.phase = .exec job) ∧
      m.writeCtrl v = ({ m with irqen := v[0] }).raise .aborted) := by
  cases h2 : v[2] <;> cases h1 : v[1] <;> cases hp : m.phase <;>
    simp [writeCtrl, softReset, abort, h2, h1, hp]

/-- A register-file write is dropped with OVR while EXEC, and replaces one word while IDLE (R63). -/
theorem Aacore.writeWindow_cases (m : Aacore W) (i : Reg) (j : Nat) (v : Word) :
    (m.phase = .idle ∧ m.writeWindow i j v = m.setReg i (withWord (m.reg i) j v)) ∨
    ((∃ job, m.phase = .exec job) ∧ m.writeWindow i j v = m.overrun) := by
  cases hp : m.phase <;> simp [writeWindow, hp]

/-! ## The command lifecycle -/

theorem State.command_idle (s : State) (i : Instr) (check : Option ErrorCode)
    (result : Latches s.cfg.W → Option (CommandResult s.cfg.W)) (h : s.core.phase = .idle) :
    s.command i check result = .next (s.setCore (s.core.accept i check none)) := by
  simp [command, h]

theorem State.command_exec (s : State) (i : Instr) (check : Option ErrorCode)
    (result : Latches s.cfg.W → Option (CommandResult s.cfg.W)) {job : Job s.cfg.W}
    {r : CommandResult s.cfg.W} (h : s.core.phase = .exec job) (hp : s.core.rngPending = false)
    (hr : result job.latches = some r) :
    s.command i check result = .next (s.setCore (s.core.complete r)) := by
  simp [command, h, hp, hr]

/-- Everything a command's next state can be: accepted, waiting, or completed. -/
theorem State.command_cases {s t : State} {i : Instr} {check : Option ErrorCode}
    {result : Latches s.cfg.W → Option (CommandResult s.cfg.W)}
    (h : s.command i check result = .next t) :
    (s.core.phase = .idle ∧ t = s.setCore (s.core.accept i check none)) ∨
    (∃ job, s.core.phase = .exec job ∧ s.core.rngPending = true ∧ t = s) ∨
    (∃ job r, s.core.phase = .exec job ∧ s.core.rngPending = false ∧
      result job.latches = some r ∧ t = s.setCore (s.core.complete r)) := by
  unfold command at h
  split at h
  · rename_i hp
    exact .inl ⟨hp, by simpa using h.symm⟩
  · rename_i job hp
    split at h
    · rename_i hr
      exact .inr (.inl ⟨job, hp, hr, by simpa using h.symm⟩)
    · rename_i hr
      split at h
      · rename_i r hres
        exact .inr (.inr ⟨job, r, hp, by simpa using hr, hres, by simpa using h.symm⟩)
      · simp at h

/-- Everything MRTEST's engine event can do: wait, request a witness, or complete (R192, R197). -/
theorem State.mrtestEvent_cases {s t : State} {rd : Reg} {job : Job s.cfg.W}
    (h : s.mrtestEvent rd job = .next t) :
    (s.core.rngPending = true ∧ t = s) ∨
    (∃ mr n, s.core.rngPending = false ∧ job.mr = some mr ∧ job.latches.s1 = some n ∧
      mr.verdict = .undecided ∧ t = s.setCore (s.core.request n)) ∨
    (∃ mr r, s.core.rngPending = false ∧ job.mr = some mr ∧
      mrtestResult s.cfg.W rd mr.verdict = some r ∧ t = s.setCore (s.core.complete r)) := by
  unfold mrtestEvent at h
  split at h
  · rename_i hr
    exact .inl ⟨hr, by simpa using h.symm⟩
  · rename_i hr
    split at h
    · rename_i mr n hm hn
      split at h
      · rename_i hv
        refine .inr (.inl ⟨mr, n, by simpa using hr, hm, hn, ?_, by simpa using h.symm⟩)
        cases hvv : mr.verdict <;> simp [mrtestResult, hvv] at hv ⊢
      · rename_i r hv
        exact .inr (.inr ⟨mr, r, by simpa using hr, hm, hv, by simpa using h.symm⟩)
    · simp at h

end Sys2Proof.Machine
end

