-- ==== Sys2Proof/Laws/PerInstr.lean ====
section
/-! SUPPORT. Facts stated of every command, one lemma a constructor. -/

namespace Sys2Proof.Laws

/-! ## MaskMatch: every encoding passes the mask test of its own row of the opcode table (R95) -/

namespace MaskMatch

/-- The encoding of a command passes its row's mask test (R95). -/
def Statement (i : Instr) : Prop := encode i &&& i.row.mask = i.row.pattern

/-- One row's test on the six fields. -/
theorem of_sixFields {i : Instr} {op : BitVec 8} {a b c d e f : BitVec 4} {mask pattern : Word}
    (he : encode i = sixFields op a b c d e f) (hr : i.row = ⟨mask, pattern⟩)
    (h : sixFields op a b c d e f &&& mask = pattern) : Statement i := by
  simp only [Statement, he, hr, h]

theorem nop : Statement .nop := by unfold Statement; decide

theorem montmul (rd ra rb rn : Reg) : Statement (.montmul rd ra rb rn) := by
  refine of_sixFields (encode_eq_sixFields _) rfl ?_
  ext i hi
  simp only [sixFields, BitVec.getElem_and, BitVec.getElem_append]
  interval_cases i <;> simp

theorem tomont (rd ra rn : Reg) : Statement (.tomont rd ra rn) := by
  refine of_sixFields (encode_eq_sixFields _) rfl ?_
  ext i hi
  simp only [sixFields, BitVec.getElem_and, BitVec.getElem_append]
  interval_cases i <;> simp

theorem frommont (rd ra rn : Reg) : Statement (.frommont rd ra rn) := by
  refine of_sixFields (encode_eq_sixFields _) rfl ?_
  ext i hi
  simp only [sixFields, BitVec.getElem_and, BitVec.getElem_append]
  interval_cases i <;> simp

theorem modmul (rd ra rb rn : Reg) : Statement (.modmul rd ra rb rn) := by
  refine of_sixFields (encode_eq_sixFields _) rfl ?_
  ext i hi
  simp only [sixFields, BitVec.getElem_and, BitVec.getElem_append]
  interval_cases i <;> simp

theorem modexp (rd ra re rn : Reg) : Statement (.modexp rd ra re rn) := by
  refine of_sixFields (encode_eq_sixFields _) rfl ?_
  ext i hi
  simp only [sixFields, BitVec.getElem_and, BitVec.getElem_append]
  interval_cases i <;> simp

theorem egcd (rg rx ry ra rb : Reg) : Statement (.egcd rg rx ry ra rb) := by
  refine of_sixFields (encode_eq_sixFields _) rfl ?_
  ext i hi
  simp only [sixFields, BitVec.getElem_and, BitVec.getElem_append]
  interval_cases i <;> simp

theorem gcd (rd ra rb : Reg) : Statement (.gcd rd ra rb) := by
  refine of_sixFields (encode_eq_sixFields _) rfl ?_
  ext i hi
  simp only [sixFields, BitVec.getElem_and, BitVec.getElem_append]
  interval_cases i <;> simp

theorem modinv (rd ra rn : Reg) : Statement (.modinv rd ra rn) := by
  refine of_sixFields (encode_eq_sixFields _) rfl ?_
  ext i hi
  simp only [sixFields, BitVec.getElem_and, BitVec.getElem_append]
  interval_cases i <;> simp

theorem mrround (rd rn ra : Reg) : Statement (.mrround rd rn ra) := by
  refine of_sixFields (encode_eq_sixFields _) rfl ?_
  ext i hi
  simp only [sixFields, BitVec.getElem_and, BitVec.getElem_append]
  interval_cases i <;> simp

theorem mrtest (rd rn : Reg) (imm8 : BitVec 8) : Statement (.mrtest rd rn imm8) := by
  refine of_sixFields (encode_eq_sixFields _) rfl ?_
  ext i hi
  simp only [sixFields, BitVec.getElem_and, BitVec.getElem_append]
  interval_cases i <;> simp

end MaskMatch

end Sys2Proof.Laws
end

