-- ==== Sys2Proof/Laws/Step.lean ====
section
/-! SUPPORT. What `exec` and `step` can do, said once: an equation for the acceptance of every
command, the result of every command in the slot, and the list of all changes a step can make to
AACORE's state. -/

namespace Sys2Proof.Machine

variable {W : Nat}

/-! ## Acceptance and result of every command, in one place -/

/-- The first failed check of a command at acceptance in state `m`, or none (R214). -/
def acceptCheck (i : Instr) (m : Aacore W) : Option ErrorCode :=
  match i with
  | .nop => none
  | .montmul _ ra rb rn => montmulCheck (m.reg ra).toNat (m.reg rb).toNat (m.reg rn).toNat
  | .tomont _ ra rn => montFormCheck (m.reg ra).toNat (m.reg rn).toNat
  | .frommont _ ra rn => montFormCheck (m.reg ra).toNat (m.reg rn).toNat
  | .modmul _ _ _ rn => modmulCheck (m.reg rn).toNat
  | .modexp _ _ _ rn => modexpCheck (m.reg rn).toNat
  | .egcd rg rx ry _ _ => egcdCheck rg rx ry
  | .gcd _ _ _ => none
  | .modinv _ _ rn => modinvCheck (m.reg rn).toNat
  | .mrround _ rn ra => mrroundCheck (m.reg rn).toNat (m.reg ra).toNat
  | .mrtest _ _ _ => none

/-- The round state a command starts with: MRTEST's alone (R192). -/
def acceptMr (i : Instr) (m : Aacore W) : Option MrState :=
  match i with
  | .mrtest _ rn imm8 => some (mrtestStart (m.reg rn).toNat imm8)
  | .nop => none
  | .montmul _ _ _ _ => none
  | .tomont _ _ _ => none
  | .frommont _ _ _ => none
  | .modmul _ _ _ _ => none
  | .modexp _ _ _ _ => none
  | .egcd _ _ _ _ _ => none
  | .gcd _ _ _ => none
  | .modinv _ _ _ => none
  | .mrround _ _ _ => none

/-- What the completion of a command answers, from what the slot holds (R124): none where the
slot lacks it, or while MRTEST is undecided. -/
def slotResult (i : Instr) (job : Job W) : Option (CommandResult W) :=
  match i with
  | .nop => some (.ok [])
  | .montmul rd _ _ _ => do
    let a ← job.latches.s1
    let b ← job.latches.s2
    let n ← job.latches.s3
    some (.ok [(rd, BitVec.ofNat W (mont W a.toNat b.toNat n.toNat))])
  | .tomont rd _ _ => do
    let a ← job.latches.s1
    let n ← job.latches.s2
    some (.ok [(rd, BitVec.ofNat W (toMont W a.toNat n.toNat))])
  | .frommont rd _ _ => do
    let a ← job.latches.s1
    let n ← job.latches.s2
    some (.ok [(rd, BitVec.ofNat W (fromMont W a.toNat n.toNat))])
  | .modmul rd _ _ _ => do
    let a ← job.latches.s1
    let b ← job.latches.s2
    let n ← job.latches.s3
    some (.ok [(rd, BitVec.ofNat W (a.toNat * b.toNat % n.toNat))])
  | .modexp rd _ _ _ => do
    let a ← job.latches.s1
    let e ← job.latches.s2
    let n ← job.latches.s3
    some (.ok [(rd, BitVec.ofNat W (powMod a.toNat e.toNat n.toNat))])
  | .egcd rg rx ry _ _ => do
    let a ← job.latches.s1
    let b ← job.latches.s2
    some (egcdResult rg rx ry a b)
  | .gcd rd _ _ => do
    let a ← job.latches.s1
    let b ← job.latches.s2
    some (.ok [(rd, BitVec.ofNat W (egcd a.toNat b.toNat).g)])
  | .modinv rd _ _ => do
    let a ← job.latches.s1
    let n ← job.latches.s2
    some (modinvResult rd a n)
  | .mrround rd _ _ => do
    let n ← job.latches.s1
    let a ← job.latches.s2
    some (.ok [(rd, BitVec.ofNat W (mrRound n.toNat a.toNat).toNat)])
  | .mrtest rd _ _ => do
    let mr ← job.mr
    mrtestResult W rd mr.verdict

/-- While IDLE, every command is accepted or fails its check (R120). -/
theorem exec_idle (i : Instr) (s : State) (h : s.core.phase = .idle) :
    exec i s = .next (s.setCore (s.core.accept i (acceptCheck i s.core) (acceptMr i s.core))) := by
  cases i with
  | mrtest rd rn imm8 => simp [exec, execMrtest, h, acceptCheck, acceptMr]
  | _ =>
    simp only [exec, execNop, execMontmul, execTomont, execFrommont, execModmul, execModexp,
      execEgcd, execGcd, execModinv, execMrround, State.command_idle _ _ _ _ h, acceptCheck,
      acceptMr]

/-- One engine event of a command in the slot: nothing, a completion, or a request. -/
inductive EngineEvent (m : Aacore W) (job : Job W) (i : Instr) : Aacore W → Prop where
  /-- a request is outstanding and the engine waits (R124) -/
  | wait (hp : m.rngPending = true) : EngineEvent m job i m
  /-- the command completes (R124) -/
  | complete (r : CommandResult W) (hp : m.rngPending = false) (hr : slotResult i job = some r) :
      EngineEvent m job i (m.complete r)
  /-- MRTEST requests a witness (R197) -/
  | request (rd rn : Reg) (imm8 : BitVec 8) (mr : MrState) (n : BitVec W)
      (hi : i = .mrtest rd rn imm8) (hp : m.rngPending = false) (hm : job.mr = some mr)
      (hv : mr.verdict = .undecided) (hn : job.latches.s1 = some n) :
      EngineEvent m job i (m.request n)

/-- While EXEC, `exec` is one engine event of the command. -/
theorem exec_engineEvent {i : Instr} {s t : State} {job : Job s.cfg.W}
    (hp : s.core.phase = .exec job) (h : exec i s = .next t) :
    ∃ m, t = s.setCore m ∧ EngineEvent s.core job i m := by
  have key : ∀ {check} {result : Latches s.cfg.W → Option (CommandResult s.cfg.W)},
      s.command i check result = .next t →
      (∀ r, result job.latches = some r → slotResult i job = some r) →
      ∃ m, t = s.setCore m ∧ EngineEvent s.core job i m := by
    intro check result hc hi
    obtain ⟨hidle, -⟩ | ⟨_, -, hr, rfl⟩ | ⟨job', r, hp', hr, hres, rfl⟩ := State.command_cases hc
    · rw [hp] at hidle; cases hidle
    · exact ⟨_, rfl, .wait hr⟩
    · cases hp.symm.trans hp'
      exact ⟨_, rfl, .complete r hr (hi r hres)⟩
  cases i with
  | mrtest rd rn imm8 =>
    simp only [exec, execMrtest, hp] at h
    obtain ⟨hr, rfl⟩ | ⟨mr, n, hr, hm, hn, hv, rfl⟩ | ⟨mr, r, hr, hm, hv, rfl⟩ :=
      State.mrtestEvent_cases h
    · exact ⟨_, rfl, .wait hr⟩
    · exact ⟨_, rfl, .request rd rn imm8 mr n rfl hr hm hv hn⟩
    · exact ⟨_, rfl, .complete r hr (by simp [slotResult, hm, hv])⟩
  | _ =>
    simp only [exec, execNop, execMontmul, execTomont, execFrommont, execModmul, execModexp,
      execEgcd, execGcd, execModinv, execMrround] at h
    exact key h fun r hr => hr

/-! ## One step, by the event it takes -/

theorem step_of_event {s : State} {e : Event s.cfg.W} (h : s.nextEvent = e) :
    step s = s.pop.event e := by
  subst h; rfl

/-- A host read, outside reset (R62). -/
theorem step_read {s : State} {a : Addr} (hr : s.rst = false)
    (h : s.nextEvent = .host (.read a)) : step s = .next (s.pop.hostRead a) := by
  simp [step_of_event h, State.event, hr, State.host]

/-- A host write, outside reset (R63). -/
theorem step_write {s : State} {a : Addr} {v : Word} (hr : s.rst = false)
    (h : s.nextEvent = .host (.write a v)) : step s = s.pop.hostWrite a v := by
  simp [step_of_event h, State.event, hr, State.host]

/-- A write to a misaligned or unmapped address (R70). -/
theorem step_write_unmapped {s : State} {a : Addr} {v : Word} (hr : s.rst = false)
    (h : s.nextEvent = .host (.write a v)) (ha : decodeAddr s.cfg.K a = none) :
    step s = .next { s with inputs := s.inputs.tail, response := some (.write true) } := by
  simp [step_write hr h, State.hostWrite, ha, State.pop]

/-- A write to a mapped address other than CMD (R63). -/
theorem step_write_target {s : State} {a : Addr} {v : Word} {t : Target} (hr : s.rst = false)
    (h : s.nextEvent = .host (.write a v)) (ha : decodeAddr s.cfg.K a = some t) (ht : t ≠ .cmd) :
    step s = .next { s with
      inputs := s.inputs.tail
      response := some (.write false)
      core := s.core.writeTarget t v } := by
  rw [step_write hr h]
  cases t <;> simp_all [State.hostWrite, State.pop]

/-- A write to CMD (R63, R120). -/
theorem step_cmd {s : State} {w : Word} (hr : s.rst = false)
    (h : s.nextEvent = .host (.write 0x0008#16 w)) :
    step s = State.issue { s with inputs := s.inputs.tail, response := some (.write false) } w := by
  simp [step_write hr h, State.hostWrite, State.pop]

/-- An answer, outside reset (R196). -/
theorem step_answer {s : State} {v : BitVec s.cfg.W} (hr : s.rst = false)
    (h : s.nextEvent = .answer v) : step s = s.pop.answer v := by
  simp [step_of_event h, State.event, hr]

/-- An engine event, outside reset (R124, R197). -/
theorem step_engine {s : State} (hr : s.rst = false) (h : s.nextEvent = .engine) :
    step s = s.pop.engineEvent := by
  simp [step_of_event h, State.event, hr]

/-! ## Everything a step can do to AACORE's state -/

/-- The changes that an event `e` can make to AACORE's state in a machine of K words whose `rst` was
last sampled at `rst`: the new state, the new level of `rst`, and the bus response. -/
inductive CoreStep (K : Nat) (rst : Bool) (e : Event W) (m : Aacore W) :
    Aacore W → Bool → Option BusResponse → Prop where
  /-- a hardware reset cycle (R240) -/
  | reset (he : e = .rst true ∨ (rst = true ∧ e ≠ .rst false)) :
      CoreStep K rst e m (Aacore.reset W) true none
  /-- `rst` sampled at 0 -/
  | release (he : e = .rst false) : CoreStep K rst e m m false none
  /-- a host read (R62) -/
  | read (a : Addr) (resp : BusResponse) (hr : rst = false) (he : e = .host (.read a)) :
      CoreStep K rst e m m false (some resp)
  /-- a quiet cycle -/
  | quiet (hr : rst = false) (he : e = .quiet) : CoreStep K rst e m m false none
  /-- an engine event while IDLE -/
  | idleEngine (hr : rst = false) (he : e = .engine) (hp : m.phase = .idle) :
      CoreStep K rst e m m false none
  /-- an answer that nothing requested (R196) -/
  | ignoredAnswer (v : BitVec W) (hr : rst = false) (he : e = .answer v)
      (hq : m.rngPending = false) : CoreStep K rst e m m false none
  /-- a bus error (R70) -/
  | busError (a : Addr) (v : Word) (hr : rst = false) (he : e = .host (.write a v))
      (ha : decodeAddr K a = none) : CoreStep K rst e m m false (some (.write true))
  /-- a write to a read-only register (R30) -/
  | readOnly (a : Addr) (v : Word) (t : Target) (hr : rst = false) (he : e = .host (.write a v))
      (ha : decodeAddr K a = some t) (ht : t = .id ∨ t = .param ∨ t = .ecmd) :
      CoreStep K rst e m m false (some (.write false))
  /-- a CMD or register-file write dropped while EXEC (R63, R121) -/
  | overrun (a : Addr) (v : Word) (t : Target) (job : Job W) (hr : rst = false)
      (he : e = .host (.write a v)) (ha : decodeAddr K a = some t)
      (ht : t = .cmd ∨ ∃ i j, t = .window i j) (hp : m.phase = .exec job) :
      CoreStep K rst e m m.overrun false (some (.write false))
  /-- a host write of one word of a register (R63) -/
  | window (a : Addr) (v : Word) (i : Reg) (j : Nat) (hr : rst = false)
      (he : e = .host (.write a v)) (ha : decodeAddr K a = some (.window i j))
      (hp : m.phase = .idle) :
      CoreStep K rst e m (m.setReg i (withWord (m.reg i) j v)) false (some (.write false))
  /-- a host write to STATUS (R35) -/
  | status (a : Addr) (v : Word) (hr : rst = false) (he : e = .host (.write a v))
      (ha : decodeAddr K a = some .status) :
      CoreStep K rst e m (m.writeStatus v) false (some (.write false))
  /-- a host write to CTRL (R37) -/
  | ctrl (a : Addr) (v : Word) (hr : rst = false) (he : e = .host (.write a v))
      (ha : decodeAddr K a = some .ctrl) :
      CoreStep K rst e m (m.writeCtrl v) false (some (.write false))
  /-- a CMD write of a word that is no command (R95, R96) -/
  | illegal (a : Addr) (w : Word) (why : DecodeReject) (hr : rst = false)
      (he : e = .host (.write a w)) (ha : decodeAddr K a = some .cmd) (hp : m.phase = .idle)
      (hd : decode w = .reject why) :
      CoreStep K rst e m ((m.latchCommand w).raise .illegal) false (some (.write false))
  /-- a CMD write of a command (R120) -/
  | accept (a : Addr) (w : Word) (i : Instr) (hr : rst = false) (he : e = .host (.write a w))
      (ha : decodeAddr K a = some .cmd) (hp : m.phase = .idle) (hd : decode w = .ok i) :
      CoreStep K rst e m (m.accept i (acceptCheck i m) (acceptMr i m)) false (some (.write false))
  /-- an engine event of the command in the slot (R124, R197) -/
  | engine (job : Job W) (i : Instr) (m' : Aacore W) (hr : rst = false) (he : e = .engine)
      (hp : m.phase = .exec job) (hd : decode job.cur = .ok i) (hm : EngineEvent m job i m') :
      CoreStep K rst e m m' false none
  /-- an answer to an outstanding request (R196) -/
  | answer (job : Job W) (mr : MrState) (n v : BitVec W) (hr : rst = false) (he : e = .answer v)
      (hq : m.rngPending = true) (hp : m.phase = .exec job) (hm : job.mr = some mr)
      (hn : job.latches.s1 = some n) :
      CoreStep K rst e m { m.withdraw with
        phase := .exec { job with mr := some (mr.evalRound n.toNat v.toNat) } } false none

/-- What a host write can do (R63). -/
theorem State.hostWrite_cases {s t : State} {a : Addr} {v : Word} (hr : s.rst = false)
    (h : s.hostWrite a v = .next t) : ∃ m resp, t = { s with core := m, response := resp } ∧
      CoreStep s.cfg.K s.rst (.host (.write a v)) s.core m s.rst resp := by
  unfold hostWrite at h
  split at h
  · rename_i ha
    obtain rfl := Host.Outcome.next.inj h
    exact ⟨_, _, rfl, by simpa only [hr] using CoreStep.busError a v rfl rfl ha⟩
  · rename_i ha
    unfold issue at h
    split at h
    · rename_i hb
      obtain ⟨job, hp⟩ := (Aacore.busy_eq_true _).1 hb
      obtain rfl := Host.Outcome.next.inj h
      exact ⟨_, _, rfl, by
        simpa only [hr] using CoreStep.overrun a v _ job rfl rfl ha (.inl rfl) hp⟩
    · rename_i hb
      have hp : s.core.phase = .idle := (Aacore.busy_eq_false _).1 (by simpa using hb)
      split at h
      · rename_i i hd
        rw [exec_idle i _ (by exact hp)] at h
        obtain rfl := Host.Outcome.next.inj h
        exact ⟨_, _, rfl, by simpa only [hr] using CoreStep.accept a v i rfl rfl ha hp hd⟩
      · rename_i why hd
        obtain rfl := Host.Outcome.next.inj h
        exact ⟨_, _, rfl, by simpa only [hr] using CoreStep.illegal a v why rfl rfl ha hp hd⟩
  · rename_i tgt ht ha
    obtain rfl := Host.Outcome.next.inj h
    refine ⟨_, _, rfl, ?_⟩
    rw [hr]
    cases tgt with
    | window i j =>
      obtain ⟨hp, he⟩ | ⟨⟨job, hp⟩, he⟩ := s.core.writeWindow_cases i j v
      · simpa only [Aacore.writeTarget, he] using CoreStep.window a v i j rfl rfl ha hp
      · simpa only [Aacore.writeTarget, he] using
          CoreStep.overrun a v _ job rfl rfl ha (.inr ⟨i, j, rfl⟩) hp
    | status => exact .status a v rfl rfl ha
    | ctrl => exact .ctrl a v rfl rfl ha
    | cmd => exact absurd rfl ht
    | _ => exact .readOnly a v _ rfl rfl ha (by simp)

/-- What an engine event can do (R124, R197). -/
theorem State.engineEvent_cases {s t : State} (hr : s.rst = false)
    (h : s.engineEvent = .next t) : ∃ m, t = s.setCore m ∧
      CoreStep s.cfg.K s.rst .engine s.core m s.rst none := by
  unfold engineEvent at h
  split at h
  · rename_i hp
    obtain rfl := Host.Outcome.next.inj h
    exact ⟨_, rfl, by simpa only [hr] using CoreStep.idleEngine rfl rfl hp⟩
  · rename_i job hp
    split at h
    · rename_i i hd
      obtain ⟨m, rfl, hm⟩ := exec_engineEvent hp h
      exact ⟨m, rfl, by simpa only [hr] using CoreStep.engine job i m rfl rfl hp hd hm⟩
    · simp at h

/-- What an answer can do (R196). -/
theorem State.answer_cases {s t : State} {v : BitVec s.cfg.W} (hr : s.rst = false)
    (h : s.answer v = .next t) : ∃ m, t = s.setCore m ∧
      CoreStep s.cfg.K s.rst (.answer v) s.core m s.rst none := by
  unfold answer at h
  split at h
  · rename_i hq
    split at h
    · simp at h
    · rename_i job hp
      split at h
      · rename_i mr n hm hn
        obtain rfl := Host.Outcome.next.inj h
        exact ⟨_, rfl, by simpa only [hr] using CoreStep.answer job mr n v rfl rfl hq hp hm hn⟩
      · simp at h
  · rename_i hq
    obtain rfl := Host.Outcome.next.inj h
    exact ⟨_, rfl, by simpa only [hr] using CoreStep.ignoredAnswer v rfl rfl (by simpa using hq)⟩

/-- Everything a step can do: it takes the next event, keeps the configuration, and changes
AACORE's state in one of the ways `CoreStep` lists. -/
theorem step_cases {s t : State} (h : step s = .next t) :
    ∃ (m : Aacore s.cfg.W) (rst : Bool) (resp : Option BusResponse),
      t = { cfg := s.cfg, core := m, rst := rst, inputs := s.inputs.tail, response := resp } ∧
      CoreStep s.cfg.K s.rst s.nextEvent s.core m rst resp := by
  generalize he : s.nextEvent = e
  rw [step_of_event he] at h
  by_cases h1 : e = .rst false
  · subst h1
    exact ⟨_, _, _, (Host.Outcome.next.inj h).symm, .release rfl⟩
  by_cases h2 : e = .rst true
  · subst h2
    exact ⟨_, _, _, (Host.Outcome.next.inj h).symm, .reset (.inl rfl)⟩
  cases hr : s.rst with
  | true =>
    have : s.pop.event e = .next s.pop.resetCycle := by
      cases e with
      | rst b => cases b <;> simp at h1 h2
      | _ => simp [State.event, hr]
    rw [this] at h
    exact ⟨_, _, _, (Host.Outcome.next.inj h).symm, .reset (.inr ⟨rfl, h1⟩)⟩
  | false =>
    have hr' : s.pop.rst = false := hr
    cases e with
    | rst b => cases b <;> simp at h1 h2
    | quiet =>
      simp only [State.event, hr'] at h
      exact ⟨_, _, _, (Host.Outcome.next.inj h).symm, by
        simpa only [State.pop_rst, hr] using CoreStep.quiet rfl rfl⟩
    | engine =>
      simp only [State.event, hr'] at h
      obtain ⟨m, rfl, hm⟩ := State.engineEvent_cases hr' h
      exact ⟨m, _, _, rfl, by simpa [hr] using hm⟩
    | answer v =>
      simp only [State.event, hr'] at h
      obtain ⟨m, rfl, hm⟩ := State.answer_cases hr' h
      exact ⟨m, _, _, rfl, by simpa [hr] using hm⟩
    | host tx =>
      simp only [State.event, hr'] at h
      cases tx with
      | read a =>
        refine ⟨_, _, _, (Host.Outcome.next.inj h).symm, ?_⟩
        rw [State.pop_rst, hr]
        exact .read a _ rfl rfl
      | write a v =>
        obtain ⟨m, resp, rfl, hm⟩ := State.hostWrite_cases hr' h
        exact ⟨m, _, _, rfl, by simpa [hr] using hm⟩

end Sys2Proof.Machine
end

