-- ==== Sys2Proof/Laws/Safety.lean ====
section
/-! SUPPORT. What the invariant gives the engine: a result for every command in the slot, and so a
next state; and that a completion writes the destinations of its command alone. -/

namespace Sys2Proof.Machine

variable {W : Nat}

/-- A completion writes exactly the destination registers of its command (R94, R124). -/
theorem slotResult_dests {i : Instr} {job : Job W} {ws : List (Reg × BitVec W)}
    (h : slotResult i job = some (.ok ws)) : ws.map Prod.fst = dests i := by
  cases i
  case nop => cases h; rfl
  case mrtest rd rn imm8 =>
    obtain ⟨mr, -, h⟩ := Option.bind_eq_some_iff.1 h
    cases hv : mr.verdict <;> simp [hv, mrtestResult] at h <;> subst h <;> rfl
  all_goals
    obtain ⟨a, -, h⟩ := Option.bind_eq_some_iff.1 h
    obtain ⟨b, -, h⟩ := Option.bind_eq_some_iff.1 h
  case egcd =>
    simp only [egcdResult, Option.some.injEq] at h
    split at h <;> simp only [reduceCtorEq, CommandResult.ok.injEq] at h
    subst h; rfl
  case modinv =>
    simp only [modinvResult, Option.some.injEq] at h
    split at h
    · simp at h
    · split at h <;> simp only [CommandResult.ok.injEq] at h <;> subst h <;> rfl
  all_goals first
    | (cases h; rfl)
    | (obtain ⟨n, -, h⟩ := Option.bind_eq_some_iff.1 h; cases h; rfl)

/-- The completion event of a command other than MRTEST, as an equation. -/
theorem exec_of_slotResult {i : Instr} {s : State} {job : Job s.cfg.W}
    {r : CommandResult s.cfg.W} (hp : s.core.phase = .exec job) (hq : s.core.rngPending = false)
    (hr : slotResult i job = some r) (hi : ∀ rd rn imm8, i ≠ .mrtest rd rn imm8) :
    exec i s = .next (s.setCore (s.core.complete r)) := by
  have key : ∀ check (result : Latches s.cfg.W → Option (CommandResult s.cfg.W)),
      result job.latches = some r →
      s.command i check result = .next (s.setCore (s.core.complete r)) :=
    fun check result h => State.command_exec _ _ _ _ hp hq h
  cases i
  case mrtest => exact absurd rfl (hi _ _ _)
  all_goals
    simp only [exec, execNop, execMontmul, execTomont, execFrommont, execModmul, execModexp,
      execEgcd, execGcd, execModinv, execMrround]
    refine key _ _ ?_
    exact hr

/-- A command other than MRTEST whose operands are in the slot has a result. -/
theorem slotResult_of_fits {i : Instr} {job : Job W} (hl : latchesFit i job.latches)
    (hi : ∀ rd rn imm8, i ≠ .mrtest rd rn imm8) : ∃ r, slotResult i job = some r := by
  cases i
  case mrtest => exact absurd rfl (hi _ _ _)
  case nop => exact ⟨_, rfl⟩
  case montmul => obtain ⟨a, b, n, h, -⟩ := hl; exact ⟨_, by simp only [slotResult, h]; rfl⟩
  case tomont => obtain ⟨a, n, h, -⟩ := hl; exact ⟨_, by simp only [slotResult, h]; rfl⟩
  case frommont => obtain ⟨a, n, h, -⟩ := hl; exact ⟨_, by simp only [slotResult, h]; rfl⟩
  case modmul => obtain ⟨a, b, n, h, -⟩ := hl; exact ⟨_, by simp only [slotResult, h]; rfl⟩
  case modexp => obtain ⟨a, e, n, h, -⟩ := hl; exact ⟨_, by simp only [slotResult, h]; rfl⟩
  case egcd => obtain ⟨a, b, h⟩ := hl; exact ⟨_, by simp only [slotResult, h]; rfl⟩
  case gcd => obtain ⟨a, b, h⟩ := hl; exact ⟨_, by simp only [slotResult, h]; rfl⟩
  case modinv => obtain ⟨a, n, h, -⟩ := hl; exact ⟨_, by simp only [slotResult, h]; rfl⟩
  case mrround => obtain ⟨n, a, h, -⟩ := hl; exact ⟨_, by simp only [slotResult, h]; rfl⟩

/-- The command that the invariant puts in the slot always has a next state. -/
theorem exec_of_jobFits {i : Instr} {s : State} {job : Job s.cfg.W}
    (hj : s.core.JobFits job i) (hp : s.core.phase = .exec job) : ∃ t, exec i s = .next t := by
  have hport := hj.port
  have hl := hj.latches
  cases hq : s.core.rngPending with
  | true =>
    refine ⟨s, ?_⟩
    cases i <;> simp_all [exec, execMrtest, State.mrtestEvent, Aacore.portFits]
  | false =>
    by_cases hi : ∃ rd rn imm8, i = .mrtest rd rn imm8
    · obtain ⟨rd, rn, imm8, rfl⟩ := hi
      obtain ⟨n, mr, h1, h2, -, -⟩ := hport
      cases hv : mr.verdict <;>
        simp [exec, execMrtest, hp, State.mrtestEvent, hq, h1, h2, hv, mrtestResult]
    · have hi : ∀ rd rn imm8, i ≠ .mrtest rd rn imm8 := by simpa using hi
      obtain ⟨r, hr⟩ := slotResult_of_fits hl hi
      exact ⟨_, exec_of_slotResult hp hq hr hi⟩

/-! ## What keeps the invariant -/

/-- A command that passes its acceptance check is well formed: R95's condition 3 is that check. -/
theorem wellFormed_of_acceptCheck {i : Instr} {m : Aacore W} (h : acceptCheck i m = none) :
    i.WellFormed := by
  cases i <;> simp_all [acceptCheck, egcdCheck, Instr.WellFormed, Instr.wellFormed]

/-- The operands captured by an accepted command fit it. -/
theorem latchesFit_capture {i : Instr} {m : Aacore W} (h : acceptCheck i m = none) :
    latchesFit i (m.capture (sources i)) := by
  cases i <;> simp only [acceptCheck, montmulCheck, montFormCheck, modmulCheck, modexpCheck,
    modinvCheck, mrroundCheck] at h <;> repeat' split at h
  case nop => rfl
  case egcd => exact ⟨_, _, rfl⟩
  case gcd => exact ⟨_, _, rfl⟩
  case mrtest => exact ⟨_, rfl⟩
  all_goals try (simp at h; done)
  · exact ⟨_, _, _, rfl, by omega, by omega, by omega⟩
  · exact ⟨_, _, rfl, by omega, by omega⟩
  · exact ⟨_, _, rfl, by omega, by omega⟩
  · exact ⟨_, _, _, rfl, by omega⟩
  · exact ⟨_, _, _, rfl, by omega⟩
  · exact ⟨_, _, rfl, by omega⟩
  · exact ⟨_, _, rfl, by omega, by omega, by omega, by omega⟩

theorem one_le_roundCount (imm8 : BitVec 8) : 1 ≤ roundCount imm8 := by
  unfold roundCount
  split
  · decide
  · rename_i h
    have : imm8.toNat ≠ 0 := fun h' => h (BitVec.eq_of_toNat_eq h')
    omega

/-- The round state that MRTEST starts with fits it. -/
theorem mrtestStart_fits (n : Nat) (imm8 : BitVec 8) : (mrtestStart n imm8).Fits n imm8 := by
  have := one_le_roundCount imm8
  refine ⟨rfl, Nat.zero_le _, fun h => ?_, fun h => ?_⟩ <;> simp only [mrtestStart] at h ⊢ <;>
    repeat' split at h
  all_goals first | (simp at h; done) | omega

/-- A round keeps the round state fit. -/
theorem evalRound_fits {mr : MrState} {n : Nat} {imm8 : BitVec 8} (v : Nat)
    (h : mr.Fits n imm8) (hv : mr.verdict = .undecided) : (mr.evalRound n v).Fits n imm8 := by
  obtain ⟨h1, h2, h3, h4⟩ := h
  obtain ⟨a, b, c⟩ := h3 hv
  unfold MrState.evalRound
  split
  · exact ⟨h1, h2, by simp, by simp⟩
  · split
    · exact ⟨h1, h2, by simp, by simp⟩
    · refine ⟨h1, c, ?_, ?_⟩
      · simp only; split
        · simp
        · exact fun _ => ⟨a, b, by omega⟩
      · simp only; split
        · exact fun _ => .inr ⟨a, b, by assumption⟩
        · simp [hv]

/-- Every command that ends in an error leaves a safe state (R211). -/
theorem Aacore.raise_inv (m : Aacore W) (c : ErrorCode) : (m.raise c).Inv := by
  constructor <;> simp [busy]

end Sys2Proof.Machine
end

