-- ==== Sys2Proof/Tests/Slice0.lean ====
section
/-! SUPPORT. The model's own tests. Expected values are those of the spec: section 2 of
spec/95_test_vectors.md, the examples of the command rules, and words written out from R91, R94 and
R98. Then, for every statement with hypotheses, a witness that meets them. -/

namespace Sys2Proof.Tests

open Sys2Proof Sys2Proof.Machine

/-! ## Small states -/

/-- Just after reset, in the reference configuration, with these registers loaded. -/
def loaded (l : List (Reg × Nat)) : State :=
  State.reset.setCore (l.foldl (fun m p => m.setReg p.1 (BitVec.ofNat _ p.2)) State.reset.core)

/-- The operand latches with these values. -/
def latched (s1 s2 s3 : Option Nat) : Latches State.reset.cfg.W :=
  ⟨s1.map (BitVec.ofNat _), s2.map (BitVec.ofNat _), s3.map (BitVec.ofNat _), none, none⟩

/-- A command in the slot with these operands. -/
def slotJob (i : Instr) (s1 s2 s3 : Option Nat) : Job State.reset.cfg.W :=
  ⟨encode i, latched s1 s2 s3, none⟩

/-- Just after reset, with a command in execution. -/
def running (i : Instr) (s1 s2 s3 : Option Nat) : State :=
  State.reset.setCore (State.reset.core.inExecution i (latched s1 s2 s3) none)

/-- MRTEST in the slot for candidate `n`. -/
def testJob (n : Nat) (imm8 : BitVec 8) (mr : MrState) : Job State.reset.cfg.W :=
  ⟨encode (.mrtest 3 0 imm8), latched (some n) none none, some mr⟩

/-- MRTEST `r3, r0, #imm8` in execution for candidate `n`, with this round state. -/
def testing (n : Nat) (imm8 : BitVec 8) (mr : MrState) : State :=
  State.reset.setCore (State.reset.core.inExecution (.mrtest 3 0 imm8)
    (latched (some n) none none) (some mr))

/-- The same with a request outstanding. -/
def asking (n : Nat) (imm8 : BitVec 8) (mr : MrState) : State :=
  State.reset.setCore ((testing n imm8 mr).core.request (BitVec.ofNat _ n))

/-- The same state with `e` as the next event. -/
def facing (s : State) (e : Event s.cfg.W) : State := { s with inputs := [e] }

/-- A question about the next state; false where there is none. -/
def onNext (o : Host.Outcome State Fault Refusal) (p : State → Bool) : Bool :=
  match o with
  | .next t => p t
  | .fault _ => false
  | .refused _ => false

/-- `R[r]` holds `v` after the step. -/
def leaves (o : Host.Outcome State Fault Refusal) (r : Reg) (v : Nat) : Bool :=
  onNext o fun t => (t.core.reg r).toNat == v

/-- STATUS reads `v` after the step. -/
def shows (o : Host.Outcome State Fault Refusal) (v : Word) : Bool :=
  onNext o fun t => t.core.statusWord == v

/-- MRTEST's round state in the slot. -/
def roundState (t : State) : Option MrState :=
  match t.core.phase with
  | .idle => none
  | .exec job => job.mr

/-- `2^64 - 1`, the M of spec/95_test_vectors.md. -/
def M : Nat := 18446744073709551615

/-! ## WellFormed: two equal destinations, each pair -/

theorem test_egcd_rg_rx_refused : ¬(Instr.egcd 0 0 1 0 1).WellFormed := by decide
theorem test_egcd_rg_ry_refused : ¬(Instr.egcd 4 5 4 0 1).WellFormed := by decide
theorem test_egcd_rx_ry_refused : ¬(Instr.egcd 15 9 9 0 1).WellFormed := by decide
theorem test_egcd_sources_may_be_destinations : (Instr.egcd 0 1 2 0 0).WellFormed := by decide
theorem test_duplicate_destinations_not_legal : legal 0x30001010#32 = false := by decide

/-! ## Decoding: words written out from R91, R94 and R98 -/

theorem test_decode_nop : decode 0b00000000_0000_0000_0000_0000_0000_0000#32 = .ok .nop := by decide
theorem test_decode_montmul : decode 0b00010000_0101_0011_0100_0010_0000_0000#32 =
    .ok (.montmul 5 3 4 2) := by decide
theorem test_decode_tomont : decode 0b00010001_0011_0000_0010_0000_0000_0000#32 =
    .ok (.tomont 3 0 2) := by decide
theorem test_decode_frommont : decode 0b00010010_0110_0101_0010_0000_0000_0000#32 =
    .ok (.frommont 6 5 2) := by decide
theorem test_decode_modmul : decode 0b00010011_0010_0000_0001_1111_0000_0000#32 =
    .ok (.modmul 2 0 1 15) := by decide
theorem test_decode_modexp : decode 0b00100000_1011_1010_0110_0010_0000_0000#32 =
    .ok (.modexp 11 10 6 2) := by decide
theorem test_decode_egcd : decode 0b00110000_0011_0100_0101_0000_0001_0000#32 =
    .ok (.egcd 3 4 5 0 1) := by decide
theorem test_decode_gcd : decode 0b00110001_0111_0110_0101_0000_0000_0000#32 =
    .ok (.gcd 7 6 5) := by decide
theorem test_decode_modinv : decode 0b00110010_1000_0110_0101_0000_0000_0000#32 =
    .ok (.modinv 8 6 5) := by decide
theorem test_decode_mrround : decode 0b01000000_0010_0000_0001_0000_0000_0000#32 =
    .ok (.mrround 2 0 1) := by decide
theorem test_decode_mrtest : decode 0b01000001_0101_0100_0000_0000_1111_1110#32 =
    .ok (.mrtest 5 4 254#8) := by decide
theorem test_decode_nonzero_field : decode 0x41300100#32 = .reject .reservedField := by decide
theorem test_decode_reserved_opcode : decode 0x01000000#32 = .reject .reservedOpcode := by decide
theorem test_tableword : decodeTableWord 32 0x41300003 = some (.mrtest 3 0 3#8) := by decide

/-- Programs P1 and P2, as lines of assembly (R98, R99). -/
theorem test_assemble_encrypt :
    (assemble "encrypt r11, R10, r6, r2 ; c".toList).map encode = some 0x20ba6200#32 := by
  decide
theorem test_assemble_mrtest_default :
    (assemble "MRTEST r8, r7".toList).map encode = some 0x41870000#32 := by decide
theorem test_assemble_immediate_too_large : assemble "MRTEST r8, r7, #256".toList = none := by
  decide

/-! ## Each command: one completion, and one error or accepted corner -/

/-- R127's example: STATUS 4, then NOP, gives 1 while busy. -/
theorem test_nop_accepted :
    shows (exec .nop (State.reset.setCore
      { State.reset.core with err := true, ecode := none })) 0x00000001#32 = true := by
  decide
theorem test_nop_completes :
    shows (exec .nop (running .nop none none none)) 0x00000002#32 = true := by decide

theorem test_montmul :
    leaves (exec (.montmul 3 0 1 2) (running (.montmul 3 0 1 2) (some 5) (some 7) (some 97)))
      3 61 = true := by decide
/-- DOMAIN is reported before RANGE (R214). -/
theorem test_montmul_domain_first :
    shows (exec (.montmul 3 0 1 2) (loaded [(0, 200), (1, 7), (2, 96)])) 0x00000024#32 = true := by
  decide

theorem test_tomont :
    leaves (exec (.tomont 3 0 1) (running (.tomont 3 0 1) (some 3000) (some 3233) none))
      3 2494 = true := by decide
theorem test_tomont_range :
    shows (exec (.tomont 3 0 1) (loaded [(0, 97), (1, 97)])) 0x00000034#32 = true := by
  decide

theorem test_frommont :
    leaves (exec (.frommont 3 0 1) (running (.frommont 3 0 1) (some 3000) (some 3233) none))
      3 889 = true := by decide
theorem test_frommont_largest :
    leaves (exec (.frommont 3 0 1) (running (.frommont 3 0 1) (some 1) (some M) none)) 3 1 = true := by
  decide

theorem test_modmul_largest :
    leaves (exec (.modmul 3 0 1 2) (running (.modmul 3 0 1 2) (some M) (some M) (some (M - 1))))
      3 1 = true := by decide
theorem test_modmul_domain :
    shows (exec (.modmul 3 0 1 2) (loaded [(0, 5), (1, 7), (2, 0)])) 0x00000024#32 = true := by
  decide

theorem test_modexp_largest :
    leaves (exec (.modexp 3 0 1 2) (running (.modexp 3 0 1 2) (some 3) (some M) (some M)))
      3 9490648191163651407 = true := by decide +kernel
theorem test_modexp_zero_to_zero :
    leaves (exec (.modexp 3 0 1 2) (running (.modexp 3 0 1 2) (some 0) (some 0) (some 5)))
      3 1 = true := by decide

/-- Program P4: the coefficient -9 in two's complement, with sources that are destinations. -/
theorem test_egcd_negative :
    leaves (exec (.egcd 0 1 2 0 1) (running (.egcd 0 1 2 0 1) (some 240) (some 46) none))
      1 0xfffffffffffffff7 = true := by decide
/-- The recursion, not the iterative form: `egcd(12, 12) = (12, 1, 0)`. -/
theorem test_egcd_equal :
    leaves (exec (.egcd 3 4 5 0 1) (running (.egcd 3 4 5 0 1) (some 12) (some 12) none))
      4 1 = true := by decide

theorem test_gcd :
    leaves (exec (.gcd 3 0 1) (running (.gcd 3 0 1) (some 240) (some 46) none)) 3 2 = true := by
  decide
theorem test_gcd_zero :
    leaves (exec (.gcd 3 0 1) (running (.gcd 3 0 1) (some 0) (some 7) none)) 3 7 = true := by
  decide

theorem test_modinv :
    leaves (exec (.modinv 3 0 1) (running (.modinv 3 0 1) (some 7919) (some 97) none))
      3 36 = true := by decide
theorem test_modinv_noinv :
    shows (exec (.modinv 3 0 1) (running (.modinv 3 0 1) (some 6) (some 9) none))
      0x00000044#32 = true := by decide

/-- A Carmichael number caught: x becomes 1 without n - 1. -/
theorem test_mrround_561 :
    leaves (exec (.mrround 3 0 1)
      ((running (.mrround 3 0 1) (some 561) (some 2) none).setCore
        ((running (.mrround 3 0 1) (some 561) (some 2) none).core.setReg 3 9#64))) 3 0 = true := by
  decide
theorem test_mrround_97 :
    leaves (exec (.mrround 3 0 1) (running (.mrround 3 0 1) (some 97) (some 2) none))
      3 1 = true := by decide

/-- V25: with a request outstanding. -/
theorem test_mrtest_request :
    shows (exec (.mrtest 3 0 1) (testing 97 1 ⟨0, 1, .undecided⟩)) 0x00000101#32 = true := by
  decide
theorem test_mrtest_rng_error :
    shows (exec (.mrtest 3 0 0) (testing 97 0 ⟨0, 10, .rngError⟩)) 0x00000064#32 = true := by
  decide

/-! ## Steps -/

/-- V9: ILLEGAL before DOMAIN. -/
theorem test_step_illegal :
    shows (step (State.reset.withFetchWord 32 0x10301201)) 0x00000014#32 = true := by
  decide
/-- V16: the abort of a busy command. -/
theorem test_step_abort :
    shows (step (facing (running .nop none none none) (.host (.write 0x0010#16 2#32))))
      0x00000074#32 = true := by decide
/-- V2: PARAM in the reference configuration. -/
theorem test_step_read_param :
    onNext (step (facing State.reset (.host (.read 0x0004#16))))
      (fun t => t.response == some (.read false 0x010A1002#32)) = true := by decide
/-- V19: word 2 of R0 does not exist when K = 2. -/
theorem test_step_read_beyond_K :
    onNext (step (facing State.reset (.host (.read 0x1008#16))))
      (fun t => t.response == some (.read true 0#32)) = true := by decide
/-- R192's draw table: 2 fails 91, 50 passes 561, and 0 and 97 are out of range for 97. -/
theorem test_answer_composite :
    onNext ((asking 91 0 ⟨0, 10, .undecided⟩).answer 2#64)
      (fun t => roundState t == some ⟨0, 10, .composite⟩) = true := by
  decide
theorem test_answer_liar_passes :
    onNext ((asking 561 3 ⟨0, 3, .undecided⟩).answer 50#64)
      (fun t => roundState t == some ⟨1, 3, .undecided⟩) = true := by
  decide

/-! ## Witnesses: for each statement with hypotheses, inputs that meet them, clause by clause -/

theorem witness_EncodeInvertsDecode : decode 0x10534200#32 = .ok (.montmul 5 3 4 2) := by decide

/-- A state and an event, outside reset: what most statements about a step assume. -/
def Meets (s : State) (e : Event s.cfg.W) : Prop := s.rst = false ∧ s.nextEvent = e

theorem meets_facing (s : State) (e : Event s.cfg.W) (h : s.rst = false) :
    Meets (facing s e) e := ⟨h, rfl⟩

theorem witness_LegalWordsAndIllegalOnes :
    legal 0x30001010#32 = false ∧ State.reset.core.phase = .idle ∧
      Meets (facing State.reset (.host (.write 0x0008#16 0x30001010#32)))
        (.host (.write 0x0008#16 0x30001010#32)) :=
  ⟨by decide, rfl, meets_facing _ _ rfl⟩

theorem witness_ReservedOpcodesAreIllegal :
    decode 0x01000000#32 = .reject .reservedOpcode ∧ decode 0xFF000000#32 = .reject .reservedOpcode ∧
      State.reset.core.phase = .idle ∧
      Meets (facing State.reset (.host (.write 0x0008#16 0x01000000#32)))
        (.host (.write 0x0008#16 0x01000000#32)) :=
  ⟨by decide, by decide, rfl, meets_facing _ _ rfl⟩

theorem witness_StepRunsTheDecodedCommand :
    (decode 0x31301000#32 = .ok (.gcd 3 0 1) ∧ State.reset.core.phase = .idle ∧
      Meets (facing State.reset (.host (.write 0x0008#16 0x31301000#32)))
        (.host (.write 0x0008#16 0x31301000#32))) ∧
    ((running (.gcd 3 0 1) (some 240) (some 46) none).core.phase =
        .exec (slotJob (.gcd 3 0 1) (some 240) (some 46) none) ∧
      decode (slotJob (.gcd 3 0 1) (some 240) (some 46) none).cur = .ok (.gcd 3 0 1) ∧
      Meets (running (.gcd 3 0 1) (some 240) (some 46) none) .engine) ∧
    decodeTableWord 32 0x31301000 = some (.gcd 3 0 1) :=
  ⟨⟨by decide, rfl, meets_facing _ _ rfl⟩, ⟨rfl, by decide, rfl, rfl⟩, by decide⟩

theorem witness_BusyDropsCommandWrites :
    (running .nop none none none).core.phase = .exec (slotJob .nop none none none) ∧
      Meets (facing (running .nop none none none) (.host (.write 0x0008#16 0x99000000#32)))
        (.host (.write 0x0008#16 0x99000000#32)) :=
  ⟨rfl, meets_facing _ _ rfl⟩

/-- The smallest and the largest modulus. -/
theorem witness_NopAndModexpAreAccepted :
    (loaded [(2, 2)]).core.phase = .idle ∧ 1 < ((loaded [(2, 2)]).core.reg 2).toNat ∧
      1 < ((loaded [(2, M)]).core.reg 2).toNat := by decide

/-- The smallest odd modulus, which forces operands of 0, and the largest with the largest
operands. -/
theorem witness_MontgomeryCommandsAreAccepted :
    (let m := (loaded [(0, 0), (1, 0), (2, 1)]).core
     m.phase = .idle ∧ (m.reg 2).toNat % 2 = 1 ∧ (m.reg 0).toNat < (m.reg 2).toNat ∧
       (m.reg 1).toNat < (m.reg 2).toNat ∧ (m.reg 2).toNat ≠ 0) ∧
    (let m := (loaded [(0, M - 1), (1, M - 1), (2, M)]).core
     m.phase = .idle ∧ (m.reg 2).toNat % 2 = 1 ∧ (m.reg 0).toNat < (m.reg 2).toNat ∧
       (m.reg 1).toNat < (m.reg 2).toNat ∧ (m.reg 2).toNat ≠ 0) := by decide

theorem witness_GcdCommandsAreAccepted :
    (loaded [(1, 1)]).core.phase = .idle ∧ ((0 : Reg) ≠ 1 ∧ (0 : Reg) ≠ 2 ∧ (1 : Reg) ≠ 2) ∧
      ((loaded [(1, 1)]).core.reg 1).toNat ≠ 0 := by decide

/-- Candidate 3 with both of its witnesses; and each verdict that a candidate can start with. -/
theorem witness_MillerRabinCommandsAreAccepted :
    (let m := (loaded [(0, 3), (1, 1), (2, 2), (4, 4)]).core
     m.phase = .idle ∧ (m.reg 0).toNat % 2 = 1 ∧ 3 ≤ (m.reg 0).toNat ∧ 1 ≤ (m.reg 1).toNat ∧
       (m.reg 1).toNat < (m.reg 0).toNat ∧ 1 ≤ (m.reg 2).toNat ∧
       (m.reg 2).toNat < (m.reg 0).toNat ∧ (m.reg 1).toNat < 2 ∧ (m.reg 2).toNat = 2 ∧
       (2 < (m.reg 4).toNat ∧ (m.reg 4).toNat % 2 = 0) ∧
       (2 < (m.reg 0).toNat ∧ (m.reg 0).toNat % 2 = 1)) := by decide

/-- Each failing check at its boundary. -/
theorem witness_AcceptanceErrorsInOrder :
    (let m := (loaded [(0, 0), (1, 1), (3, 3), (4, 4)]).core
     m.phase = .idle ∧ (m.reg 0).toNat % 2 = 0 ∧
       ((m.reg 1).toNat % 2 = 1 ∧ (m.reg 1).toNat ≤ (m.reg 1).toNat) ∧
       ((m.reg 3).toNat % 2 = 1 ∧ (m.reg 3).toNat ≤ (m.reg 4).toNat) ∧ (m.reg 0).toNat = 0 ∧
       (m.reg 1).toNat ≤ 1 ∧ ((m.reg 4).toNat % 2 = 0 ∨ (m.reg 4).toNat < 3) ∧
       ((m.reg 1).toNat % 2 = 0 ∨ (m.reg 1).toNat < 3) ∧
       ((m.reg 3).toNat % 2 = 1 ∧ 3 ≤ (m.reg 3).toNat ∧ (m.reg 0).toNat = 0 ∧
         (m.reg 3).toNat ≤ (m.reg 3).toNat)) ∧
    ((7 : Reg) = 7 ∨ (7 : Reg) = 8) := by decide

theorem witness_NopCompletes :
    (running .nop none none none).core.phase = .exec (slotJob .nop none none none) ∧
      (running .nop none none none).core.rngPending = false := ⟨rfl, rfl⟩

theorem witness_MontmulCompletes :
    let i : Instr := .montmul 3 0 1 2
    (running i (some 96) (some 96) (some 97)).core.phase =
        .exec (slotJob i (some 96) (some 96) (some 97)) ∧
      (running i (some 96) (some 96) (some 97)).core.rngPending = false ∧
      (slotJob i (some 96) (some 96) (some 97)).latches.s1 = some 96#64 ∧
      (slotJob i (some 96) (some 96) (some 97)).latches.s2 = some 96#64 ∧
      (slotJob i (some 96) (some 96) (some 97)).latches.s3 = some 97#64 ∧
      (97#64).toNat % 2 = 1 := ⟨rfl, rfl, rfl, rfl, rfl, rfl⟩

theorem witness_TomontCompletes :
    let i : Instr := .tomont 3 0 1
    (running i (some 96) (some 97) none).core.phase = .exec (slotJob i (some 96) (some 97) none) ∧
      (running i (some 96) (some 97) none).core.rngPending = false ∧
      (slotJob i (some 96) (some 97) none).latches.s1 = some 96#64 ∧
      (slotJob i (some 96) (some 97) none).latches.s2 = some 97#64 ∧
      (97#64).toNat % 2 = 1 := ⟨rfl, rfl, rfl, rfl, rfl⟩

theorem witness_FrommontCompletes :
    let i : Instr := .frommont 3 0 1
    (running i (some 0) (some 1) none).core.phase = .exec (slotJob i (some 0) (some 1) none) ∧
      (running i (some 0) (some 1) none).core.rngPending = false ∧
      (slotJob i (some 0) (some 1) none).latches.s1 = some 0#64 ∧
      (slotJob i (some 0) (some 1) none).latches.s2 = some 1#64 ∧
      (1#64).toNat % 2 = 1 := ⟨rfl, rfl, rfl, rfl, rfl⟩

theorem witness_ModmulCompletes :
    let i : Instr := .modmul 3 0 1 2
    (running i (some M) (some M) (some 1)).core.phase =
        .exec (slotJob i (some M) (some M) (some 1)) ∧
      (running i (some M) (some M) (some 1)).core.rngPending = false ∧
      (slotJob i (some M) (some M) (some 1)).latches.s1 = some (BitVec.ofNat 64 M) ∧
      (slotJob i (some M) (some M) (some 1)).latches.s2 = some (BitVec.ofNat 64 M) ∧
      (slotJob i (some M) (some M) (some 1)).latches.s3 = some 1#64 ∧
      (1#64).toNat ≠ 0 := ⟨rfl, rfl, rfl, rfl, rfl, by decide⟩

theorem witness_ModexpCompletes :
    let i : Instr := .modexp 3 0 1 2
    (running i (some 7) (some 0) (some 2)).core.phase =
        .exec (slotJob i (some 7) (some 0) (some 2)) ∧
      (running i (some 7) (some 0) (some 2)).core.rngPending = false ∧
      (slotJob i (some 7) (some 0) (some 2)).latches.s1 = some 7#64 ∧
      (slotJob i (some 7) (some 0) (some 2)).latches.s2 = some 0#64 ∧
      (slotJob i (some 7) (some 0) (some 2)).latches.s3 = some 2#64 ∧
      1 < (2#64).toNat := ⟨rfl, rfl, rfl, rfl, rfl, by decide⟩

theorem witness_EgcdCompletes :
    let i : Instr := .egcd 0 1 2 0 1
    (running i (some 240) (some 46) none).core.phase =
        .exec (slotJob i (some 240) (some 46) none) ∧
      (running i (some 240) (some 46) none).core.rngPending = false ∧
      (slotJob i (some 240) (some 46) none).latches.s1 = some 240#64 ∧
      (slotJob i (some 240) (some 46) none).latches.s2 = some 46#64 ∧
      ((0 : Reg) ≠ 1 ∧ (0 : Reg) ≠ 2 ∧ (1 : Reg) ≠ 2) ∧
      -(2 : Int) ^ 63 ≤ (egcd 240 46).x ∧ (egcd 240 46).x < (2 : Int) ^ 63 ∧
      -(2 : Int) ^ 63 ≤ (egcd 240 46).y ∧ (egcd 240 46).y < (2 : Int) ^ 63 := by
  refine ⟨rfl, rfl, rfl, rfl, by decide, ?_, ?_, ?_, ?_⟩ <;> decide

/-- With operands of one bit, `egcd(1, 0) = (1, 1, 0)`, and 1 is no 1-bit two's complement. -/
theorem witness_EgcdOverflowIsRaised :
    (2 : Int) ^ (1 - 1) ≤ (egcd (1#1).toNat (0#1).toNat).x := by decide

theorem witness_GcdCompletes :
    let i : Instr := .gcd 3 0 1
    (running i (some 0) (some 0) none).core.phase = .exec (slotJob i (some 0) (some 0) none) ∧
      (running i (some 0) (some 0) none).core.rngPending = false ∧
      (slotJob i (some 0) (some 0) none).latches.s1 = some 0#64 ∧
      (slotJob i (some 0) (some 0) none).latches.s2 = some 0#64 := ⟨rfl, rfl, rfl, rfl⟩

/-- An inverse modulo 1, and no inverse of 0 modulo 5. -/
theorem witness_ModinvCompletes :
    let i : Instr := .modinv 3 0 1
    ((running i (some 5) (some 1) none).core.phase = .exec (slotJob i (some 5) (some 1) none) ∧
      (running i (some 5) (some 1) none).core.rngPending = false ∧
      (slotJob i (some 5) (some 1) none).latches.s1 = some 5#64 ∧
      (slotJob i (some 5) (some 1) none).latches.s2 = some 1#64 ∧
      (1#64).toNat ≠ 0 ∧ Nat.gcd 5 1 = 1) ∧
    ((running i (some 0) (some 5) none).core.phase = .exec (slotJob i (some 0) (some 5) none) ∧
      (running i (some 0) (some 5) none).core.rngPending = false ∧
      (slotJob i (some 0) (some 5) none).latches.s1 = some 0#64 ∧
      (slotJob i (some 0) (some 5) none).latches.s2 = some 5#64 ∧
      (5#64).toNat ≠ 0 ∧ Nat.gcd 0 5 ≠ 1) :=
  ⟨⟨rfl, rfl, rfl, rfl, by decide, by decide⟩, rfl, rfl, rfl, rfl, by decide, by decide⟩

/-- 221 with the strong liar 174 and with 137: `220 = 2^2 * 55`. -/
theorem witness_MrroundCompletes :
    let i : Instr := .mrround 3 0 1
    (running i (some 221) (some 174) none).core.phase =
        .exec (slotJob i (some 221) (some 174) none) ∧
      (running i (some 221) (some 174) none).core.rngPending = false ∧
      (slotJob i (some 221) (some 174) none).latches.s1 = some 221#64 ∧
      (slotJob i (some 221) (some 174) none).latches.s2 = some 174#64 ∧
      3 ≤ 221 ∧ 1 ≤ 174 ∧ 174 < 221 ∧ 221 - 1 = 2 ^ 2 * 55 ∧ 55 % 2 = 1 ∧
      (174 ^ (2 ^ 1 * 55) % 221 = 221 - 1) ∧
      ¬(137 ^ 55 % 221 = 1 ∨ ∃ j < 2, 137 ^ (2 ^ j * 55) % 221 = 221 - 1) := by
  refine ⟨rfl, rfl, rfl, rfl, ?_⟩
  decide

theorem witness_MrtestEngineEvents :
    let mr : Verdict → MrState := fun v => ⟨0, 10, v⟩
    ((asking 97 0 (mr .undecided)).core.phase = .exec (testJob 97 0 (mr .undecided)) ∧
      (asking 97 0 (mr .undecided)).core.rngPending = true) ∧
    ∀ v, (testing 97 0 (mr v)).core.phase = .exec (testJob 97 0 (mr v)) ∧
      (testJob 97 0 (mr v)).latches.s1 = some 97#64 ∧ (testJob 97 0 (mr v)).mr = some (mr v) ∧
      (testing 97 0 (mr v)).core.rngPending = false := by
  refine ⟨⟨rfl, rfl⟩, fun v => ⟨rfl, rfl, rfl, rfl⟩⟩

/-- Answers 0, 1, n - 1 and n for candidate 91, and 2, which fails its round. -/
theorem witness_AnswerEvaluatesTheRound :
    let s := asking 91 1 ⟨0, 1, .undecided⟩
    (∀ v, Meets (facing s (.answer v)) (.answer v)) ∧ s.core.rngPending = true ∧
      s.core.phase = .exec (testJob 91 1 ⟨0, 1, .undecided⟩) ∧
      (testJob 91 1 ⟨0, 1, .undecided⟩).latches.s1 = some 91#64 ∧
      (¬(1 ≤ 0 ∧ 0 < 91) ∧ ¬(1 ≤ 91 ∧ 91 < 91) ∧ mrRound 91 2 = false ∧ mrRound 91 1 = true ∧
        mrRound 91 90 = true) := by
  refine ⟨fun v => meets_facing _ _ rfl, rfl, rfl, rfl, ?_⟩
  decide

theorem witness_UnrequestedAnswerIsIgnored :
    Meets (facing State.reset (.answer 5#64)) (.answer 5#64) ∧
      State.reset.core.rngPending = false := ⟨meets_facing _ _ rfl, rfl⟩

theorem witness_OnlyMrtestRequestsWitnesses :
    (testing 97 1 ⟨0, 1, .undecided⟩).core.rngPending = false ∧
      onNext (step (testing 97 1 ⟨0, 1, .undecided⟩)) (fun t => t.core.rngPending) = true := by
  decide

/-- The last word of R15, and each kind of address that names nothing, at its boundaries. -/
theorem witness_ReadOfEveryAddress :
    (∀ a, Meets (facing State.reset (.host (.read a))) (.host (.read a))) ∧
      (1 < State.reset.cfg.K ∧ (0x1F04#16).toNat = 0x1000 + 0x100 * (15 : Reg).val + 4 * 1) ∧
      (0x0001#16).toNat % 4 ≠ 0 ∧ (0x0018 ≤ (0x0018#16).toNat ∧ (0x0FFC#16).toNat < 0x1000) ∧
      0x2000 ≤ (0x2000#16).toNat ∧
      (0x1000 ≤ (0x1008#16).toNat ∧ State.reset.cfg.K ≤ (0x1008#16).toNat % 0x100 / 4) := by
  refine ⟨fun a => meets_facing _ _ rfl, ?_⟩
  decide

theorem witness_BadAddressWriteChangesNothing :
    (∀ a v, Meets (facing State.reset (.host (.write a v))) (.host (.write a v))) ∧
      (0x1002#16).toNat % 4 ≠ 0 ∧ (0x0018 ≤ (0x0018#16).toNat ∧ (0x0FFC#16).toNat < 0x1000) ∧
      0x2000 ≤ (0xFFFC#16).toNat ∧
      (0x1000 ≤ (0x1008#16).toNat ∧ State.reset.cfg.K ≤ (0x1008#16).toNat % 0x100 / 4) := by
  refine ⟨fun a v => meets_facing _ _ rfl, ?_⟩
  decide

theorem witness_ReadOnlyRegistersIgnoreWrites :
    Meets (facing State.reset (.host (.write 0x0014#16 1#32))) (.host (.write 0x0014#16 1#32)) :=
  meets_facing _ _ rfl

theorem witness_RegisterWindowWrites :
    (∀ s : State, s.rst = false → Meets (facing s (.host (.write 0x1F04#16 7#32)))
      (.host (.write 0x1F04#16 7#32))) ∧
      1 < State.reset.cfg.K ∧ (0x1F04#16).toNat = 0x1000 + 0x100 * (15 : Reg).val + 4 * 1 ∧
      State.reset.core.phase = .idle ∧
      (running .nop none none none).core.phase = .exec (slotJob .nop none none none) :=
  ⟨fun s h => meets_facing s _ h, by decide, by decide, rfl, rfl⟩

theorem witness_StatusWriteClearsWhatIsWrittenOne :
    Meets (facing State.reset (.host (.write 0x000C#16 0xE#32))) (.host (.write 0x000C#16 0xE#32)) :=
  meets_facing _ _ rfl

theorem witness_CtrlWriteActs :
    (∀ (s : State) v, s.rst = false → Meets (facing s (.host (.write 0x0010#16 v)))
      (.host (.write 0x0010#16 v))) ∧
      (5#32)[2] = true ∧ ((1#32)[2] = false ∧ (1#32)[1] = false) ∧
      ((2#32)[2] = false ∧ (2#32)[1] = true) ∧ State.reset.core.phase = .idle ∧
      (running .nop none none none).core.phase = .exec (slotJob .nop none none none) :=
  ⟨fun s v h => meets_facing s _ h, by decide, by decide, by decide, rfl, rfl⟩

theorem witness_HardwareReset :
    (facing State.reset (.rst true)).nextEvent = .rst true ∧
    ((facing { State.reset with rst := true } .quiet).rst = true ∧
      (facing { State.reset with rst := true } .quiet).nextEvent ≠ .rst false) ∧
    (facing { State.reset with rst := true } (.rst false)).nextEvent = .rst false := by
  decide

/-- NOP in the slot is a safe state. -/
theorem inv_running_nop : (running .nop none none none).Inv where
  done_err := by decide
  busy_flags := fun _ => ⟨rfl, rfl⟩
  ecode_err := rfl
  err_ecmd := by decide
  pending_busy := fun _ => rfl
  bounds_zero := fun _ => ⟨rfl, rfl⟩
  slot := fun job h => by
    obtain rfl := Phase.exec.inj h
    exact ⟨.nop, ⟨rfl, by decide, by decide, rfl, ⟨rfl, rfl⟩⟩⟩

/-- MRTEST of 97 with two rounds, its first request outstanding, is a safe state. -/
theorem inv_asking : (asking 97 2 ⟨0, 2, .undecided⟩).Inv where
  done_err := by decide
  busy_flags := fun _ => ⟨rfl, rfl⟩
  ecode_err := rfl
  err_ecmd := by decide
  pending_busy := fun _ => rfl
  bounds_zero := fun h => absurd h (by decide)
  slot := fun job h => by
    obtain rfl := Phase.exec.inj h
    refine ⟨.mrtest 3 0 2, ⟨rfl, by decide, by decide, ⟨_, rfl⟩, ?_⟩⟩
    exact ⟨97#64, ⟨0, 2, .undecided⟩, rfl, rfl,
      ⟨by decide, by decide, fun _ => ⟨by decide, by decide, by decide⟩, fun h => by cases h⟩,
      fun _ => ⟨rfl, rfl, rfl⟩⟩

/-- A request outstanding in a safe state, one that a quiet cycle leaves outstanding, no request, and
each kind of response. -/
theorem witness_OutputPins :
    (let s := asking 97 2 ⟨0, 2, .undecided⟩
     s.Inv ∧ s.rst = false ∧ s.core.rngPending = true ∧ s.outputs.rngReq = true ∧
       onNext (step (facing s .quiet)) (fun t => t.outputs.rngReq) = true) ∧
    (State.reset.rst = false ∧ State.reset.core.rngPending = false ∧
      State.reset.response = none) ∧
    (onNext (step (facing State.reset (.host (.read 0x0018#16))))
        (fun t => !t.rst && t.response == some (.read true 0#32)) = true ∧
      onNext (step (facing State.reset (.host (.write 0x0000#16 5#32))))
        (fun t => !t.rst && t.response == some (.write false)) = true) :=
  ⟨⟨inv_asking, by decide⟩, by decide, by decide⟩

/-- A state with DONE and IRQEN set, and the W1C write that clears its interrupt. -/
theorem witness_InterruptOutput :
    let s := facing (State.reset.setCore
      { State.reset.core with done := true, irqen := true }) (.host (.write 0x000C#16 2#32))
    s.rst = false ∧ s.outputs.irq = true ∧
      onNext (step s) (fun t => t.outputs.irq == false) = true := by decide

theorem witness_StepKeepsSafety : (running .nop none none none).Inv ∧
    ∃ t, step (running .nop none none none) = .next t :=
  ⟨inv_running_nop, _, rfl⟩

theorem witness_SafeStatesNeverStop : (asking 97 2 ⟨0, 2, .undecided⟩).Inv := inv_asking

theorem witness_WhatChangesThePhase : (running .nop none none none).Inv ∧
    (running .nop none none none).core.phase = .exec (slotJob .nop none none none) ∧
    ∃ t, step (running .nop none none none) = .next t ∧ t.core.phase = .idle :=
  ⟨inv_running_nop, rfl, _, rfl, rfl⟩

/-- A host write that changes R15 from a safe state. -/
theorem witness_WhatChangesTheRegisters :
    State.reset.core.phase = .idle ∧
      leaves (step (facing State.reset (.host (.write 0x1F04#16 1#32)))) 15 (2 ^ 32) = true := by
  decide

/-- An error recorded from a state with ERR clear, and one from a state with ERR set. -/
theorem witness_WhatChangesEcmd :
    onNext (step (facing State.reset (.host (.write 0x0008#16 0x99000000#32))))
      (fun t => t.core.err && t.core.ecmd == 0x99000000#32) = true ∧
    onNext (step (facing (State.reset.setCore (State.reset.core.raise .noinv))
      (.host (.write 0x0008#16 0x99000000#32))))
      (fun t => t.core.err && t.core.ecmd == 0x99000000#32) = true := by decide

theorem witness_WhatChangesLastcmd :
    onNext (step (facing State.reset (.host (.write 0x0008#16 0x41300000#32))))
      (fun t => t.core.lastcmd == 0x41300000#32) = true ∧
      Meets (facing State.reset (.host (.write 0x0008#16 0x41300000#32)))
        (.host (.write 0x0008#16 0x41300000#32)) :=
  ⟨by decide, meets_facing _ _ rfl⟩

theorem witness_OverrunIsSticky :
    onNext (step (facing (running .nop none none none) (.host (.write 0x1000#16 5#32))))
      (fun t => t.core.ovr) = true ∧
    onNext (step (facing (State.reset.setCore { State.reset.core with ovr := true })
      (.host (.write 0x000C#16 8#32)))) (fun t => t.core.ovr == false) = true := by
  decide

theorem witness_CommandFrame : ∃ t, exec .nop (running .nop none none none) = .next t := ⟨_, rfl⟩

theorem witness_LaterRegisterValuesDoNotMatter :
    (running .nop none none none).core.phase = .exec (slotJob .nop none none none) ∧
      ∃ t, exec .nop (running .nop none none none) = .next t := ⟨rfl, _, rfl⟩

theorem witness_EngineMakesProgress :
    ((running .nop none none none).Inv ∧ Meets (running .nop none none none) .engine ∧
      (running .nop none none none).core.phase = .exec (slotJob .nop none none none) ∧
      (running .nop none none none).core.rngPending = false) ∧
    ((facing (asking 97 2 ⟨0, 2, .undecided⟩) (.answer 2#64)).Inv ∧
      Meets (facing (asking 97 2 ⟨0, 2, .undecided⟩) (.answer 2#64)) (.answer 2#64) ∧
      (asking 97 2 ⟨0, 2, .undecided⟩).core.phase = .exec (testJob 97 2 ⟨0, 2, .undecided⟩) ∧
      (asking 97 2 ⟨0, 2, .undecided⟩).core.rngPending = true) :=
  ⟨⟨inv_running_nop, ⟨rfl, rfl⟩, rfl, rfl⟩, inv_asking, meets_facing _ _ rfl, rfl, rfl⟩

theorem witness_HostLdLoadsTheRegister :
    let s : State := { State.reset with inputs := hostLd State.reset.cfg 15 M ++ [] }
    s.rst = false ∧ s.core.phase = .idle ∧ M < 2 ^ s.cfg.W ∧
      s.inputs = hostLd s.cfg 15 M ++ [] := ⟨rfl, rfl, by decide, rfl⟩

/-- The smallest modulus and operand. -/
theorem witness_InverseIsUnique : 1 ≤ 1 ∧ Nat.gcd 0 1 = 1 := by decide

theorem witness_MontgomeryLaws : 1 % 2 = 1 ∧ 0 < 1 ∧ 97 % 2 = 1 ∧ 96 < 97 := by decide

theorem witness_CompositeVerdictIsCertain :
    (Nat.Prime 3 ∧ 3 ≠ 2 ∧ 1 ≤ 2 ∧ 2 < 3) ∧ (mrtestStart 4 0).verdict = .composite ∧
      (91 % 2 = 1 ∧ 3 ≤ 91 ∧ ((⟨0, 10, .undecided⟩ : MrState).evalRound 91 2).verdict = .composite) := by
  refine ⟨⟨by norm_num, by decide⟩, by decide, by decide⟩

/-- `17 - 1 = 2^4 * 1`, and 3 is neither 1 nor 16. -/
theorem witness_ExtraSquaringChangesNothing :
    17 % 2 = 1 ∧ 3 ≤ 17 ∧ 1 ≤ 3 ∧ 3 < 17 ∧ 17 - 1 = 2 ^ 4 * 1 ∧ 1 % 2 = 1 ∧
      powMod 3 1 17 ≠ 1 ∧ powMod 3 1 17 ≠ 17 - 1 := by decide

end Sys2Proof.Tests
end

section
/-! R170's recursion, Bezout's identity for its result, and R10's modular inverse. -/

namespace Sys2Proof.Machine

/-! ## R170's recursion, without the fuel -/

@[simp] theorem egcd_zero_left (b : Nat) : egcd 0 b = ⟨b, 0, 1⟩ := egcdFuel_zero_left 0 b

theorem egcd_of_ne_zero {a : Nat} (ha : a ≠ 0) (b : Nat) :
    egcd a b = ⟨(egcd (b % a) a).g,
      (egcd (b % a) a).y - ((b / a : Nat) : Int) * (egcd (b % a) a).x, (egcd (b % a) a).x⟩ := by
  obtain ⟨k, rfl⟩ := Nat.exists_eq_succ_of_ne_zero ha
  have hfuel : egcdFuel k (b % (k + 1)) (k + 1) = egcd (b % (k + 1)) (k + 1) :=
    egcdFuel_eq (Nat.le_of_lt_succ (Nat.mod_lt b k.succ_pos)) le_rfl
  rw [← hfuel]
  rfl

/-- R170: the divisor. -/
theorem egcd_g_eq_gcd (a b : Nat) : (egcd a b).g = Nat.gcd a b := by
  induction a, b using Nat.gcd.induction with
  | H0 b => simp
  | H1 a b ha ih => rw [egcd_of_ne_zero ha.ne', Nat.gcd_rec a b]; exact ih

/-- R170: Bezout's identity. -/
theorem egcd_bezout (a b : Nat) :
    (a : Int) * (egcd a b).x + (b : Int) * (egcd a b).y = ((egcd a b).g : Int) := by
  induction a, b using Nat.gcd.induction with
  | H0 b => simp
  | H1 a b ha ih =>
    have hdiv : (b : Int) = ((b % a : Nat) : Int) + a * ((b / a : Nat) : Int) := by
      exact_mod_cast (Nat.mod_add_div b a).symm
    rw [egcd_of_ne_zero ha.ne']
    linear_combination ih + (egcd (b % a) a).x * hdiv

/-! ## The modular inverse -/

theorem inv_lt_modulus {n : Nat} (hn : 1 ≤ n) (a : Nat) : inv a n < n :=
  (Int.toNat_lt_of_ne_zero (by omega)).2 (Int.emod_lt_of_pos _ (by omega))

/-- `inv a n` is the coefficient of `a % n` in Bezout's identity, modulo n. -/
theorem inv_modEq {n : Nat} (hn : 1 ≤ n) (a : Nat) :
    (inv a n : Int) ≡ (egcd (a % n) n).x [ZMOD n] := by
  rw [inv, Int.toNat_of_nonneg (Int.emod_nonneg _ (by omega))]
  exact Int.mod_modEq _ _

/-- For any operand, coprime or not: Bezout's identity read modulo n. -/
theorem mul_inv_modEq_gcd {n : Nat} (hn : 1 ≤ n) (a : Nat) :
    a * inv a n ≡ Nat.gcd a n [MOD n] := by
  have hg : (egcd (a % n) n).g = Nat.gcd a n :=
    (egcd_g_eq_gcd _ _).trans (Nat.mod_modEq a n).gcd_eq
  have ha : (a : Int) ≡ ((a % n : Nat) : Int) [ZMOD n] :=
    Int.natCast_modEq_iff.2 (Nat.mod_modEq a n).symm
  rw [← Int.natCast_modEq_iff]
  calc ((a * inv a n : Nat) : Int)
      = (a : Int) * (inv a n : Int) := by push_cast; rfl
    _ ≡ ((a % n : Nat) : Int) * (egcd (a % n) n).x [ZMOD n] := ha.mul (inv_modEq hn a)
    _ ≡ ((a % n : Nat) : Int) * (egcd (a % n) n).x + n * (egcd (a % n) n).y [ZMOD n] :=
        Int.modEq_add_fac_self.symm
    _ = ((Nat.gcd a n : Nat) : Int) := by rw [egcd_bezout, hg]

theorem mul_inv_modEq_one {a n : Nat} (hn : 1 ≤ n) (hgcd : Nat.gcd a n = 1) :
    a * inv a n ≡ 1 [MOD n] := hgcd ▸ mul_inv_modEq_gcd hn a

/-- Two inverses of a number coprime to n agree modulo n, because that number cancels. -/
theorem eq_inv_of_mul_modEq_one {a n x : Nat} (hgcd : Nat.gcd a n = 1) (hx : x < n)
    (hmul : a * x ≡ 1 [MOD n]) : x = inv a n := by
  have hn : 1 ≤ n := by omega
  have hsame : x ≡ inv a n [MOD n] :=
    Nat.ModEq.cancel_left_of_coprime (by rwa [Nat.gcd_comm])
      (hmul.trans (mul_inv_modEq_one hn hgcd).symm)
  exact hsame.eq_of_lt_of_lt hx (inv_lt_modulus hn a)

/-- Settles O54: existence from Bezout's identity modulo n, uniqueness by cancelling a. -/
theorem inverseIsUnique : Obligations.InverseIsUnique := fun a _n hn hgcd =>
  ⟨inv_lt_modulus hn a, mul_inv_modEq_one hn hgcd, fun _x => eq_inv_of_mul_modEq_one hgcd⟩

end Sys2Proof.Machine
end

section
/-! What keeps the invariant: the two shapes of a safe state, what each operation of the lifecycle
makes of one, and so of every step; and that a safe state always has a step. -/

namespace Sys2Proof

/-- A word that decodes is the encoding of its command: the reserved bits are the rest of it. -/
theorem encode_of_decode {w : Word} {i : Instr} (h : decode w = .ok i) : encode i = w := by
  obtain ⟨op, a, b, c, d, e, f, rfl⟩ := exists_sixFields w
  unfold decode at h
  rw [opField_sixFields] at h
  split at h
  case h_12 => simp at h
  all_goals
    obtain ⟨hz, rfl⟩ := ifZero_eq_ok h
    simp only [low4_sixFields, low8_sixFields, low12_sixFields, low24_sixFields, mid8_sixFields,
      BitVec.ofNat_eq_ofNat, append2_eq_zero, append3_eq_zero, append6_eq_zero] at hz
    simp [encode_eq_sixFields, hz, hi4_append, lo4_append]

end Sys2Proof

namespace Sys2Proof.Machine

variable {W : Nat}

/-! ## The two shapes of a safe state -/

/-- A state with a free slot is safe when its flags are. -/
theorem Aacore.inv_of_idle {m : Aacore W} (hphase : m.phase = .idle)
    (hdone : ¬(m.done = true ∧ m.err = true)) (hecode : m.ecode.isSome = m.err)
    (hecmd : m.err = true → m.ecmd = m.lastcmd) (hpending : m.rngPending = false)
    (hbounds : m.rngLo = 0 ∧ m.rngHi = 0) : m.Inv where
  done_err := hdone
  busy_flags := by simp [hphase]
  ecode_err := hecode
  err_ecmd := hecmd
  pending_busy := by simp [hpending]
  bounds_zero := fun _ => hbounds
  slot := by simp [hphase]

/-- A state with a command in execution is safe when its flags are clear and the command fits. -/
theorem Aacore.inv_of_exec {m : Aacore W} {job : Job W} {i : Instr} (hphase : m.phase = .exec job)
    (hdone : m.done = false) (herr : m.err = false) (hecode : m.ecode = none)
    (hbounds : m.rngPending = false → m.rngLo = 0 ∧ m.rngHi = 0) (hjob : m.JobFits job i) :
    m.Inv where
  done_err := by simp [hdone]
  busy_flags := fun _ => ⟨hdone, herr⟩
  ecode_err := by simp [hecode, herr]
  err_ecmd := by simp [herr]
  pending_busy := fun _ => m.busy_exec hphase
  bounds_zero := hbounds
  slot := fun job' h => by
    cases hphase.symm.trans h
    exact ⟨i, hjob⟩

/-! ## What a safe state says while IDLE and while EXEC -/

theorem Aacore.Inv.not_pending_of_idle {m : Aacore W} (h : m.Inv) (hphase : m.phase = .idle) :
    m.rngPending = false :=
  Bool.eq_false_iff.2 fun hpending => by simpa [hphase] using h.pending_busy hpending

theorem Aacore.Inv.flags_of_exec {m : Aacore W} {job : Job W} (h : m.Inv)
    (hphase : m.phase = .exec job) : m.done = false ∧ m.err = false ∧ m.ecode = none := by
  obtain ⟨hdone, herr⟩ := h.busy_flags (m.busy_exec hphase)
  exact ⟨hdone, herr, by simpa [herr] using h.ecode_err⟩

/-- Only MRTEST has a round state, and only MRTEST has a request outstanding. -/
theorem Aacore.JobFits.mrFits_of_mr_or_pending {m : Aacore W} {job : Job W} {i : Instr}
    (h : m.JobFits job i) (hport : job.mr ≠ none ∨ m.rngPending = true) :
    ∃ rd rn imm8, i = .mrtest rd rn imm8 ∧ m.mrFits job imm8 := by
  have hfits := h.port
  cases i with
  | mrtest rd rn imm8 => exact ⟨rd, rn, imm8, rfl, hfits⟩
  | _ =>
    obtain ⟨hmr, hpending⟩ := hfits
    simp [hmr, hpending] at hport

/-- MRTEST in the slot keeps fitting when its round state and the port change to ones that fit. -/
theorem Aacore.JobFits.withMr {m m' : Aacore W} {job : Job W} {rd rn : Reg} {imm8 : BitVec 8}
    {mr : Option MrState} (h : m.JobFits job (.mrtest rd rn imm8)) (hlast : m'.lastcmd = m.lastcmd)
    (hport : m'.mrFits { job with mr := mr } imm8) :
    m'.JobFits { job with mr := mr } (.mrtest rd rn imm8) :=
  ⟨h.cur_lastcmd.trans hlast.symm, h.cur_decode, h.wellFormed, h.latches, hport⟩

/-! ## Updates that leave the command slot and the port alone -/

/-- `m'` has the command slot, the randomness port, LASTCMD and ECMD of `m`. -/
structure Aacore.SameCommand (m m' : Aacore W) : Prop where
  phase : m'.phase = m.phase
  lastcmd : m'.lastcmd = m.lastcmd
  ecmd : m'.ecmd = m.ecmd
  rngPending : m'.rngPending = m.rngPending
  rngLo : m'.rngLo = m.rngLo
  rngHi : m'.rngHi = m.rngHi

theorem Aacore.SameCommand.portFits {m m' : Aacore W} (h : m.SameCommand m') {job : Job W}
    {i : Instr} (hport : m.portFits job i) : m'.portFits job i := by
  cases i with
  | mrtest rd rn imm8 =>
    simpa only [Aacore.portFits, Aacore.mrFits, h.rngPending, h.rngLo, h.rngHi] using hport
  | _ => exact ⟨hport.1, h.rngPending.trans hport.2⟩

theorem Aacore.SameCommand.jobFits {m m' : Aacore W} (h : m.SameCommand m') {job : Job W}
    {i : Instr} (hjob : m.JobFits job i) : m'.JobFits job i :=
  ⟨hjob.cur_lastcmd.trans h.lastcmd.symm, hjob.cur_decode, hjob.wellFormed, hjob.latches,
    h.portFits hjob.port⟩

/-- Such an update keeps the invariant if it sets neither DONE nor ERR and keeps ECODE with ERR. -/
theorem Aacore.Inv.of_sameCommand {m m' : Aacore W} (hm : m.Inv) (h : m.SameCommand m')
    (hdone : m'.done = true → m.done = true) (herr : m'.err = true → m.err = true)
    (hecode : m'.ecode.isSome = m'.err) : m'.Inv := by
  have hbusy : m'.busy = m.busy := by simp only [busy, h.phase]
  constructor
  case done_err => exact fun ⟨hd, he⟩ => hm.done_err ⟨hdone hd, herr he⟩
  case busy_flags =>
    intro hb
    obtain ⟨hd, he⟩ := hm.busy_flags (hbusy ▸ hb)
    exact ⟨Bool.eq_false_iff.2 fun h1 => by simp [hdone h1] at hd,
      Bool.eq_false_iff.2 fun h1 => by simp [herr h1] at he⟩
  case ecode_err => exact hecode
  case err_ecmd => exact fun he => by rw [h.ecmd, h.lastcmd, hm.err_ecmd (herr he)]
  case pending_busy => rw [h.rngPending, hbusy]; exact hm.pending_busy
  case bounds_zero => rw [h.rngPending, h.rngLo, h.rngHi]; exact hm.bounds_zero
  case slot =>
    rw [h.phase]
    exact fun job hp => (hm.slot job hp).imp fun _ hjob => h.jobFits hjob

theorem Aacore.setReg_inv {m : Aacore W} (h : m.Inv) (r : Reg) (v : BitVec W) :
    (m.setReg r v).Inv :=
  h.of_sameCommand ⟨rfl, rfl, rfl, rfl, rfl, rfl⟩ id id h.ecode_err

theorem Aacore.overrun_inv {m : Aacore W} (h : m.Inv) : m.overrun.Inv :=
  h.of_sameCommand ⟨rfl, rfl, rfl, rfl, rfl, rfl⟩ id id h.ecode_err

theorem Aacore.setIrqen_inv {m : Aacore W} (h : m.Inv) (b : Bool) : ({ m with irqen := b }).Inv :=
  h.of_sameCommand ⟨rfl, rfl, rfl, rfl, rfl, rfl⟩ id id h.ecode_err

/-- A STATUS write clears ERR and ECODE together (R35). -/
theorem Aacore.writeStatus_inv {m : Aacore W} (h : m.Inv) (v : Word) : (m.writeStatus v).Inv := by
  refine h.of_sameCommand ⟨rfl, rfl, rfl, rfl, rfl, rfl⟩ ?_ ?_ ?_
  · simp +contextual
  · simp +contextual
  · cases hv : v[2] <;> simp [hv, h.ecode_err]

/-! ## Reset, acceptance and the events of a command in execution -/

theorem Aacore.reset_inv (W : Nat) : (Aacore.reset W).Inv :=
  inv_of_idle rfl (by simp [reset]) rfl (by simp [reset]) rfl ⟨rfl, rfl⟩

theorem Aacore.writeCtrl_inv {m : Aacore W} (h : m.Inv) (v : Word) : (m.writeCtrl v).Inv := by
  obtain ⟨-, heq⟩ | ⟨-, -, heq⟩ | ⟨-, -, -, heq⟩ := m.writeCtrl_cases v <;> rw [heq]
  · exact reset_inv W
  · exact setIrqen_inv h _
  · exact raise_inv _ _

/-- The port at acceptance: idle, with MRTEST's round state at its start (R192). -/
theorem Aacore.portFits_of_acceptMr (m : Aacore W) {m' : Aacore W} (i : Instr)
    (hpending : m'.rngPending = false) {job : Job W} (hmr : job.mr = acceptMr i m)
    (hlatches : job.latches = m.capture (sources i)) : m'.portFits job i := by
  cases i with
  | mrtest rd rn imm8 =>
    exact ⟨m.reg rn, _, by rw [hlatches]; rfl, hmr, mrtestStart_fits _ _, by simp [hpending]⟩
  | _ => exact ⟨hmr, hpending⟩

theorem Aacore.accept_inv {m : Aacore W} {i : Instr} (h : m.Inv) (hphase : m.phase = .idle)
    (hdec : decode (encode i) = .ok i) : (m.accept i (acceptCheck i m) (acceptMr i m)).Inv := by
  cases hcheck : acceptCheck i m with
  | some c => exact raise_inv _ _
  | none =>
    have hpending := h.not_pending_of_idle hphase
    exact inv_of_exec rfl rfl rfl rfl h.bounds_zero
      ⟨rfl, hdec, wellFormed_of_acceptCheck hcheck, latchesFit_capture hcheck,
        portFits_of_acceptMr m i hpending rfl rfl⟩

theorem Aacore.complete_inv {m : Aacore W} {job : Job W} (h : m.Inv) (hphase : m.phase = .exec job)
    (hpending : m.rngPending = false) (r : CommandResult W) : (m.complete r).Inv := by
  obtain ⟨ws, -, heq⟩ | ⟨c, -, heq⟩ := m.complete_cases r <;> rw [heq]
  · obtain ⟨-, herr, -⟩ := h.flags_of_exec hphase
    exact inv_of_idle rfl (by simp [herr]) h.ecode_err h.err_ecmd hpending
      (h.bounds_zero hpending)
  · exact raise_inv _ _

/-- A request is made while the verdict is undecided, over the candidate in S1 (R197). -/
theorem Aacore.request_inv {m : Aacore W} {job : Job W} {mr : MrState} {n : BitVec W} (h : m.Inv)
    (hphase : m.phase = .exec job) (hmr : job.mr = some mr) (hn : job.latches.s1 = some n)
    (hv : mr.verdict = .undecided) : (m.request n).Inv := by
  obtain ⟨i, hjob⟩ := h.slot job hphase
  obtain ⟨rd, rn, imm8, rfl, n', mr', hn', hmr', hfits, -⟩ :=
    hjob.mrFits_of_mr_or_pending (.inl (by simp [hmr]))
  cases hn.symm.trans hn'
  cases hmr.symm.trans hmr'
  obtain ⟨hdone, herr, hecode⟩ := h.flags_of_exec hphase
  exact inv_of_exec hphase hdone herr hecode (by simp)
    (hjob.withMr rfl ⟨n, mr, hn, hmr, hfits, fun _ => ⟨hv, rfl, rfl⟩⟩)

/-- An answer ends the request and advances the round state of the undecided MRTEST (R196). -/
theorem Aacore.answer_inv {m : Aacore W} {job : Job W} {mr : MrState} {n : BitVec W} (v : Nat)
    (h : m.Inv) (hphase : m.phase = .exec job) (hmr : job.mr = some mr)
    (hn : job.latches.s1 = some n) (hpending : m.rngPending = true) :
    ({ m.withdraw with phase := .exec { job with mr := some (mr.evalRound n.toNat v) } }).Inv := by
  obtain ⟨i, hjob⟩ := h.slot job hphase
  obtain ⟨rd, rn, imm8, rfl, n', mr', hn', hmr', hfits, hreq⟩ :=
    hjob.mrFits_of_mr_or_pending (.inr hpending)
  cases hn.symm.trans hn'
  cases hmr.symm.trans hmr'
  obtain ⟨hv, -, -⟩ := hreq hpending
  obtain ⟨hdone, herr, hecode⟩ := h.flags_of_exec hphase
  exact inv_of_exec rfl hdone herr hecode (fun _ => ⟨rfl, rfl⟩)
    (hjob.withMr rfl ⟨n, _, hn, rfl, evalRound_fits v hfits hv, by simp⟩)

/-! ## Every step -/

theorem EngineEvent.inv {m m' : Aacore W} {job : Job W} {i : Instr} (he : EngineEvent m job i m')
    (h : m.Inv) (hphase : m.phase = .exec job) : m'.Inv := by
  cases he with
  | wait => exact h
  | complete r hpending => exact Aacore.complete_inv h hphase hpending r
  | request rd rn imm8 mr n hi hpending hmr hv hn => exact Aacore.request_inv h hphase hmr hn hv

theorem CoreStep.inv {K : Nat} {rst rst' : Bool} {e : Event W} {m m' : Aacore W}
    {resp : Option BusResponse} (hstep : CoreStep K rst e m m' rst' resp) (h : m.Inv) : m'.Inv := by
  cases hstep with
  | reset => exact Aacore.reset_inv W
  | release | read | quiet | idleEngine | ignoredAnswer | busError | readOnly => exact h
  | overrun => exact Aacore.overrun_inv h
  | window => exact Aacore.setReg_inv h _ _
  | status => exact Aacore.writeStatus_inv h _
  | ctrl => exact Aacore.writeCtrl_inv h _
  | illegal => exact Aacore.raise_inv _ _
  | accept a w i _ _ _ hphase hdec =>
    exact Aacore.accept_inv h hphase (by rw [encode_of_decode hdec]; exact hdec)
  | engine job i m' _ _ hphase _ hm => exact hm.inv h hphase
  | answer job mr n v _ _ hpending hphase hmr hn =>
    exact Aacore.answer_inv v.toNat h hphase hmr hn hpending

/-- Settles O42: a step changes AACORE as `CoreStep` lists, and each of these changes keeps the
invariant. -/
theorem stepKeepsSafety : Obligations.StepKeepsSafety := by
  intro s t hs hstep
  obtain ⟨m, rst, resp, rfl, hm⟩ := step_cases hstep
  exact hm.inv hs

/-- Settles O41. -/
theorem resetIsSafe : Obligations.ResetIsSafe := fun c => Aacore.reset_inv c.W

/-! ## A safe state always has a step -/

/-- A word that arrives at CMD has an effect in every state, safe or not. -/
theorem State.exists_issue (s : State) (w : Word) : ∃ t, s.issue w = .next t := by
  unfold issue
  split
  · exact ⟨_, rfl⟩
  · rename_i hbusy
    have hphase : s.core.phase = .idle := (Aacore.busy_eq_false _).1 (by simpa using hbusy)
    split
    · exact ⟨_, exec_idle _ s hphase⟩
    · exact ⟨_, rfl⟩

theorem State.exists_host (s : State) (tx : Transaction) : ∃ t, s.host tx = .next t := by
  cases tx with
  | read a => exact ⟨_, rfl⟩
  | write a v =>
    simp only [host, hostWrite]
    split
    · exact ⟨_, rfl⟩
    · exact exists_issue _ v
    · exact ⟨_, rfl⟩

theorem State.exists_engineEvent {s : State} (h : s.Inv) : ∃ t, s.engineEvent = .next t := by
  cases hphase : s.core.phase with
  | idle => exact ⟨s, by simp [engineEvent, hphase]⟩
  | exec job =>
    obtain ⟨i, hjob⟩ := h.slot job hphase
    simpa [engineEvent, hphase, hjob.cur_decode] using exec_of_jobFits hjob hphase

/-- An outstanding request is MRTEST's, so the answer finds the candidate and the round state. -/
theorem State.exists_answer {s : State} (h : s.Inv) (v : BitVec s.cfg.W) :
    ∃ t, s.answer v = .next t := by
  cases hpending : s.core.rngPending with
  | false => exact ⟨s, by simp [answer, hpending]⟩
  | true =>
    obtain ⟨job, hphase⟩ := (Aacore.busy_eq_true _).1 (h.pending_busy hpending)
    obtain ⟨i, hjob⟩ := h.slot job hphase
    obtain ⟨-, -, -, -, n, mr, hn, hmr, -⟩ := hjob.mrFits_of_mr_or_pending (.inr hpending)
    exact ⟨_, by simp only [answer, hpending, hphase, hmr, hn, if_true]; rfl⟩

/-- While `rst` stays at 1 every event is a reset cycle, which is a next state too (R240). -/
theorem State.exists_unlessReset {s : State} {o : Host.Outcome State Fault Refusal}
    (h : ∃ t, o = .next t) : ∃ t, (if s.rst then .next s.resetCycle else o) = .next t := by
  split
  · exact ⟨_, rfl⟩
  · exact h

/-- Settles O43: by the kind of the next event, in reset and outside it. -/
theorem safeStatesNeverStop : Obligations.SafeStatesNeverStop := by
  intro s hs
  have hpop : s.pop.Inv := hs
  generalize he : s.nextEvent = e
  rw [step_of_event he]
  cases e with
  | rst level => cases level <;> exact ⟨_, rfl⟩
  | host tx => exact State.exists_unlessReset (State.exists_host s.pop tx)
  | answer v => exact State.exists_unlessReset (State.exists_answer hpop v)
  | engine => exact State.exists_unlessReset (State.exists_engineEvent hpop)
  | quiet => exact State.exists_unlessReset ⟨_, rfl⟩

end Sys2Proof.Machine
end

section
/-! What a step does to LASTCMD and ECMD (R33, R38). -/

namespace Sys2Proof.Machine

variable {W : Nat}

/-- The events that take AACORE to its reset state: a soft reset, or a cycle of hardware reset. -/
def IsReset (rst : Bool) (e : Event W) : Prop :=
  (∃ v, e = .host (.write 0x0010#16 v) ∧ v[2] = true) ∨ e = .rst true ∨ rst = true

/-- From `m` to `m'`, ECMD takes the word of the last command with a recorded error, and is kept
otherwise; ERR is not set without it. -/
def Aacore.EcmdRecordsErrors (m m' : Aacore W) : Prop :=
  (m'.err = true ∧ m'.ecmd = m'.lastcmd) ∨ (m'.ecmd = m.ecmd ∧ (m'.err = true → m.err = true))

theorem Aacore.EcmdRecordsErrors.refl (m : Aacore W) : m.EcmdRecordsErrors m := .inr ⟨rfl, id⟩

theorem Aacore.EcmdRecordsErrors.of_raise (m x : Aacore W) (c : ErrorCode) :
    m.EcmdRecordsErrors (x.raise c) := .inl ⟨rfl, rfl⟩

/-! ## Acceptance -/

@[simp] theorem Aacore.accept_lastcmd (m : Aacore W) (i : Instr) (check : Option ErrorCode)
    (mr : Option MrState) : (m.accept i check mr).lastcmd = encode i := by
  cases check <;> rfl

theorem Aacore.accept_ecmdRecordsErrors (m : Aacore W) (i : Instr) (check : Option ErrorCode)
    (mr : Option MrState) : m.EcmdRecordsErrors (m.accept i check mr) := by
  cases check with
  | none => exact .inr ⟨rfl, fun h => by cases h⟩
  | some c => exact .of_raise _ _ c

/-- ERR after acceptance is the error of this command, because acceptance clears the last one. -/
theorem Aacore.accept_ecmd_of_err {m : Aacore W} {i : Instr} {check : Option ErrorCode}
    {mr : Option MrState} (h : (m.accept i check mr).err = true) :
    (m.accept i check mr).ecmd = encode i := by
  cases check with
  | none => cases h
  | some c => rfl

/-- A CMD write while IDLE: LASTCMD takes the word, and so does ECMD if the command fails. -/
theorem State.issue_lastcmd_ecmd {s t : State} {w : Word} (hphase : s.core.phase = .idle)
    (h : s.issue w = .next t) :
    t.core.lastcmd = w ∧ (t.core.err = true → t.core.ecmd = w) := by
  simp only [issue, s.core.busy_idle hphase, Bool.false_eq_true, if_false] at h
  split at h
  · rename_i i hdec
    rw [exec_idle i s hphase] at h
    cases h
    rw [← encode_of_decode hdec]
    exact ⟨Aacore.accept_lastcmd _ _ _ _, Aacore.accept_ecmd_of_err⟩
  · cases h
    exact ⟨rfl, fun _ => rfl⟩

/-! ## Every step -/

theorem Aacore.complete_lastcmd_ecmd (m : Aacore W) (r : CommandResult W) :
    m.EcmdRecordsErrors (m.complete r) ∧ (m.complete r).lastcmd = m.lastcmd := by
  obtain ⟨ws, -, heq⟩ | ⟨c, -, heq⟩ := m.complete_cases r <;> rw [heq]
  · exact ⟨.inr ⟨rfl, id⟩, rfl⟩
  · exact ⟨.of_raise _ _ c, rfl⟩

theorem EngineEvent.lastcmd_ecmd {m m' : Aacore W} {job : Job W} {i : Instr}
    (he : EngineEvent m job i m') : m.EcmdRecordsErrors m' ∧ m'.lastcmd = m.lastcmd := by
  cases he with
  | wait => exact ⟨.refl m, rfl⟩
  | complete r => exact m.complete_lastcmd_ecmd r
  | request => exact ⟨.inr ⟨rfl, id⟩, rfl⟩

/-- A reset, or a step in which ECMD changes by an error alone and LASTCMD by a CMD write alone. -/
theorem CoreStep.lastcmd_ecmd {K : Nat} {rst rst' : Bool} {e : Event W} {m m' : Aacore W}
    {resp : Option BusResponse} (hstep : CoreStep K rst e m m' rst' resp) :
    (IsReset rst e ∧ m' = Aacore.reset W) ∨
    (m.EcmdRecordsErrors m' ∧ (m'.lastcmd = m.lastcmd ∨
      ∃ w, m.phase = .idle ∧ e = .host (.write 0x0008#16 w))) := by
  cases hstep with
  | reset he => exact .inl ⟨.inr (he.imp_right And.left), rfl⟩
  | release | read | quiet | idleEngine | ignoredAnswer | busError | readOnly =>
    exact .inr ⟨.refl m, .inl rfl⟩
  | overrun | window | answer => exact .inr ⟨.inr ⟨rfl, id⟩, .inl rfl⟩
  | status => exact .inr ⟨.inr ⟨rfl, by simp +contextual⟩, .inl rfl⟩
  | ctrl a v _ he ha =>
    obtain rfl := eq_of_decodeAddr_ctrl ha
    obtain ⟨hv, heq⟩ | ⟨-, -, heq⟩ | ⟨-, -, -, heq⟩ := m.writeCtrl_cases v <;> rw [heq]
    · exact .inl ⟨.inl ⟨v, he, hv⟩, rfl⟩
    · exact .inr ⟨.inr ⟨rfl, id⟩, .inl rfl⟩
    · exact .inr ⟨.of_raise _ _ _, .inl rfl⟩
  | illegal a w why _ he ha hphase =>
    obtain rfl := eq_of_decodeAddr_cmd ha
    exact .inr ⟨.of_raise _ _ _, .inr ⟨w, hphase, he⟩⟩
  | accept a w i _ he ha hphase =>
    obtain rfl := eq_of_decodeAddr_cmd ha
    exact .inr ⟨m.accept_ecmdRecordsErrors _ _ _, .inr ⟨w, hphase, he⟩⟩
  | engine job i m' _ _ _ _ hm => exact .inr ⟨hm.lastcmd_ecmd.1, .inl hm.lastcmd_ecmd.2⟩

/-- `CoreStep.lastcmd_ecmd`, of `step`. -/
theorem step_lastcmd_ecmd {s t : State} (h : step s = .next t) :
    (IsReset s.rst s.nextEvent ∧ t.core.err = false) ∨
    (((t.core.err = true ∧ t.core.ecmd = t.core.lastcmd) ∨
        (t.core.ecmd = s.core.ecmd ∧ (t.core.err = true → s.core.err = true))) ∧
      (t.core.lastcmd = s.core.lastcmd ∨
        ∃ w, s.core.phase = .idle ∧ s.nextEvent = .host (.write 0x0008#16 w))) := by
  obtain ⟨m, rst, resp, rfl, hm⟩ := step_cases h
  exact hm.lastcmd_ecmd.imp_left fun ⟨hreset, hm⟩ => ⟨hreset, by rw [hm]; rfl⟩

/-- A step that takes a CMD write while IDLE. -/
theorem step_cmd_lastcmd_ecmd {s t : State} {w : Word} (hr : s.rst = false)
    (hphase : s.core.phase = .idle) (hw : s.nextEvent = .host (.write 0x0008#16 w))
    (h : step s = .next t) : t.core.lastcmd = w ∧ (t.core.err = true → t.core.ecmd = w) := by
  rw [step_cmd hr hw] at h
  exact State.issue_lastcmd_ecmd (by exact hphase) h

/-- Settles O46. -/
theorem whatChangesEcmd : Obligations.WhatChangesEcmd := by
  refine ⟨fun W => rfl, fun s t h => ⟨?_, fun w hr hphase hw => ?_, ?_⟩⟩
  · intro herr herr'
    obtain ⟨-, hclear⟩ | ⟨⟨-, hrec⟩ | ⟨-, hkept⟩, -⟩ := step_lastcmd_ecmd h
    · simp [hclear] at herr
    · exact hrec
    · simp [hkept herr] at herr'
  · exact (step_cmd_lastcmd_ecmd hr hphase hw h).2
  · intro hne
    obtain ⟨hreset, -⟩ | ⟨hrec | ⟨hkept, -⟩, -⟩ := step_lastcmd_ecmd h
    · exact .inr hreset
    · exact .inl hrec
    · exact absurd hkept hne

/-- Settles O47. -/
theorem whatChangesLastcmd : Obligations.WhatChangesLastcmd := by
  refine fun s t h => ⟨fun w hr hphase hw => (step_cmd_lastcmd_ecmd hr hphase hw h).1, fun hne => ?_⟩
  obtain ⟨hreset, -⟩ | ⟨-, hkept | hcmd⟩ := step_lastcmd_ecmd h
  · exact .inr hreset
  · exact absurd hkept hne
  · exact .inl hcmd

end Sys2Proof.Machine
end

section
/-! The control and status registers: their writes (R30, R35, R37), their fields (R31, R32, R34,
R36), and their values after reset (R40). -/

namespace Sys2Proof.Machine

variable {W : Nat}

/-! ## Writes -/

@[simp] theorem decodeAddr_id (K : Nat) : decodeAddr K 0x0000#16 = some .id := rfl
@[simp] theorem decodeAddr_param (K : Nat) : decodeAddr K 0x0004#16 = some .param := rfl
@[simp] theorem decodeAddr_ecmd (K : Nat) : decodeAddr K 0x0014#16 = some .ecmd := rfl

/-- Settles O31. -/
theorem readOnlyRegistersIgnoreWrites : Obligations.ReadOnlyRegistersIgnoreWrites := by
  intro s a v hr he ha
  obtain rfl | rfl | rfl := ha
  · exact step_write_target hr he (decodeAddr_id _) (by simp)
  · exact step_write_target hr he (decodeAddr_param _) (by simp)
  · exact step_write_target hr he (decodeAddr_ecmd _) (by simp)

/-- The W1C write of R35, each flag by the bit that clears it. -/
theorem Aacore.writeStatus_eq (m : Aacore W) (v : Word) : m.writeStatus v = { m with
    done := if v[1] then false else m.done
    err := if v[2] then false else m.err
    ecode := if v[2] then none else m.ecode
    ovr := if v[3] then false else m.ovr } := by
  cases h1 : v[1] <;> cases h2 : v[2] <;> cases h3 : v[3] <;> simp [writeStatus, h1, h2, h3]

/-- Settles O34. -/
theorem statusWriteClearsWhatIsWrittenOne : Obligations.StatusWriteClearsWhatIsWrittenOne := by
  intro s v hr he
  rw [step_write_target hr he (decodeAddr_status _) (by simp), ← Aacore.writeStatus_eq]
  rfl

/-- Settles O35: the three clauses are the three cases of a CTRL write. -/
theorem ctrlWriteActs : Obligations.CtrlWriteActs := by
  intro s v hr he
  rw [step_write_target hr he (decodeAddr_ctrl _) (by simp)]
  simp only [Aacore.writeTarget]
  obtain ⟨h2, heq⟩ | ⟨h2, h1, heq⟩ | ⟨h2, h1, ⟨job, hp⟩, heq⟩ := s.core.writeCtrl_cases v <;>
    rw [heq]
  · simp [h2]
  · refine ⟨by simp [h2], fun _ _ => rfl, fun _ h1' job hp => ?_⟩
    simp [h1', hp] at h1
  · refine ⟨by simp [h2], fun _ h => ?_, fun _ _ _ _ => rfl⟩
    simp [h1, hp] at h

/-! ## Fields -/

/-- The five single-bit fields of STATUS (R34). -/
theorem Aacore.statusWord_flags (m : Aacore W) :
    m.statusWord[0] = m.busy ∧ m.statusWord[1] = m.done ∧ m.statusWord[2] = m.err ∧
      m.statusWord[3] = m.ovr ∧ m.statusWord[8] = m.rngPending := by
  simp only [statusWord, ← BitVec.getLsbD_eq_getElem, BitVec.getLsbD_append]
  simp

theorem Aacore.extractLsb'_ecode_statusWord (m : Aacore W) :
    m.statusWord.extractLsb' 4 4 = ecodeBits m.ecode := by
  refine BitVec.eq_of_getLsbD_eq fun i hi => ?_
  simp only [statusWord, BitVec.getLsbD_extractLsb', BitVec.getLsbD_append]
  interval_cases i <;> simp

theorem Aacore.extractLsb'_reserved_statusWord (m : Aacore W) :
    m.statusWord.extractLsb' 9 23 = 0 := by
  refine BitVec.eq_of_getLsbD_eq fun i hi => ?_
  simp only [statusWord, BitVec.getLsbD_extractLsb', BitVec.getLsbD_append]
  interval_cases i <;> simp

/-- Settles O36. -/
theorem statusReadFields : Obligations.StatusReadFields := by
  intro W m
  obtain ⟨hbusy, hdone, herr, hovr, hreq⟩ := m.statusWord_flags
  refine ⟨by rw [hbusy, m.busy_eq_true], hdone, herr, hovr, hreq,
    m.extractLsb'_reserved_statusWord, ?_⟩
  rw [m.extractLsb'_ecode_statusWord]
  rcases m.ecode with _ | c
  · rfl
  · cases c <;> rfl

/-- The four bytes of a word. -/
theorem extractLsb'_fourBytes (a b c d : BitVec 8) :
    BitVec.extractLsb' 0 8 (a ++ b ++ c ++ d : Word) = d ∧
    BitVec.extractLsb' 8 8 (a ++ b ++ c ++ d : Word) = c ∧
    BitVec.extractLsb' 16 8 (a ++ b ++ c ++ d : Word) = b ∧
    BitVec.extractLsb' 24 8 (a ++ b ++ c ++ d : Word) = a := by
  refine ⟨?_, ?_, ?_, ?_⟩ <;>
  · refine BitVec.eq_of_getLsbD_eq fun i hi => ?_
    simp only [BitVec.getLsbD_extractLsb', BitVec.getLsbD_append]
    interval_cases i <;> simp

/-- Settles O37. -/
theorem constantAndControlReadFields : Obligations.ConstantAndControlReadFields := by
  refine ⟨by decide, by decide, fun c m => ?_⟩
  obtain ⟨hK, hnreg, hrounds, hversion⟩ := extractLsb'_fourBytes 1#8
    (BitVec.ofNat 8 defaultRounds) (BitVec.ofNat 8 nreg) (BitVec.ofNat 8 c.K)
  have hlt : c.K < 2 ^ 8 := c.K_le_64.trans_lt (by decide)
  refine ⟨?_, ?_, ?_, ?_, ?_, ?_⟩
  · rw [paramWord, hK, BitVec.toNat_ofNat, Nat.mod_eq_of_lt hlt]
  · rw [paramWord, hnreg]; rfl
  · rw [paramWord, hrounds]; rfl
  · rw [paramWord, hversion]; rfl
  · simp only [Aacore.ctrlWord, ← BitVec.getLsbD_eq_getElem, BitVec.getLsbD_append]
    simp
  · refine BitVec.eq_of_getLsbD_eq fun i hi => ?_
    simp only [Aacore.ctrlWord, BitVec.getLsbD_extractLsb', BitVec.getLsbD_append]
    interval_cases i <;> simp

/-! ## After reset -/

@[simp] theorem Aacore.reg_reset (W : Nat) (r : Reg) : (Aacore.reset W).reg r = 0 := by
  simp [reg, reset, Vector.get_eq_getElem]

@[simp] theorem Aacore.statusWord_reset (W : Nat) : (Aacore.reset W).statusWord = 0 := by
  simp [statusWord, reset, busy, ecodeBits]

/-- Settles O38. -/
theorem resetState : Obligations.ResetState := fun c =>
  ⟨Aacore.reg_reset c.W, rfl, rfl, Aacore.statusWord_reset c.W, rfl, rfl, rfl, rfl, rfl, rfl⟩

end Sys2Proof.Machine
end

section
/-! The register space: the reads of every address (R62, R68 to R70), the writes to a register and
to an address that names nothing (R63, R69, R70), and the words of a register (R67). -/

namespace Sys2Proof.Machine

/-! ## Reads -/

/-- A host read shows the value of what its address names, or a bus error, and changes nothing
else. -/
theorem step_read_answer {s : State} {a : Addr} (hr : s.rst = false)
    (he : s.nextEvent = .host (.read a)) : ∃ (err : Bool) (d : Word),
      step s = .next { s with inputs := s.inputs.tail, response := some (.read err d) } ∧
      (∀ t, decodeAddr s.cfg.K a = some t → err = false ∧ d = s.readValue t) ∧
      (decodeAddr s.cfg.K a = none → err = true ∧ d = 0) := by
  simp only [step_read hr he, State.hostRead, State.pop]
  cases decodeAddr s.cfg.K a with
  | none => exact ⟨true, 0, rfl, by simp, fun _ => ⟨rfl, rfl⟩⟩
  | some t => exact ⟨false, s.readValue t, rfl, by simp, by simp⟩

/-- Settles O29: an address is in the map, or it is one that names nothing. -/
theorem readOfEveryAddress : Obligations.ReadOfEveryAddress := by
  intro s a hr he
  obtain ⟨err, d, hstep, hmapped, hnone⟩ := step_read_answer hr he
  refine ⟨err, d, hstep, fun ha => hmapped .id (ha ▸ decodeAddr_id _),
    fun ha => hmapped .param (ha ▸ decodeAddr_param _),
    fun ha => hmapped .cmd (ha ▸ decodeAddr_cmd _),
    fun ha => hmapped .status (ha ▸ decodeAddr_status _),
    fun ha => hmapped .ctrl (ha ▸ decodeAddr_ctrl _),
    fun ha => hmapped .ecmd (ha ▸ decodeAddr_ecmd _),
    fun i j hj ha => ?_, fun ha => hnone (decodeAddr_eq_none ha)⟩
  obtain ⟨herr, rfl⟩ := hmapped _ (decodeAddr_window s.cfg.K_le_64 hj ha)
  exact ⟨herr, toNat_wordOf _ _⟩

/-! ## Writes -/

/-- Settles O30. -/
theorem badAddressWriteChangesNothing : Obligations.BadAddressWriteChangesNothing :=
  fun _ _ _ hr he ha => step_write_unmapped hr he (decodeAddr_eq_none ha)

/-- Settles O32: the two clauses are the two cases of a register-file write. -/
theorem registerWindowWrites : Obligations.RegisterWindowWrites := by
  intro s a v i j hr he hj ha
  rw [step_write_target hr he (decodeAddr_window s.cfg.K_le_64 hj ha) (by simp)]
  simp only [Aacore.writeTarget]
  obtain ⟨hidle, heq⟩ | ⟨⟨job, hexec⟩, heq⟩ := s.core.writeWindow_cases i j v <;> rw [heq]
  · have hfits : 32 * j + 32 ≤ s.cfg.W := by simp only [Config.W]; omega
    exact ⟨fun _ => ⟨_, rfl, fun b => getLsbD_withWord _ j v b hfits⟩, by simp [hidle]⟩
  · exact ⟨by simp [hexec], fun _ _ => rfl⟩

/-! ## The words of a register -/

/-- The low `k` words of a value are the value modulo their weight. -/
theorem sum_wordOf_eq_mod {W : Nat} (v : BitVec W) (k : Nat) :
    ∑ j ∈ Finset.range k, (wordOf v j).toNat * 2 ^ (32 * j) = v.toNat % 2 ^ (32 * k) := by
  induction k with
  | zero => simp [Nat.mod_one]
  | succ k ih =>
    rw [Finset.sum_range_succ, ih, toNat_wordOf, mul_add_one, pow_add, Nat.mod_mul,
      mul_comm (_ % _)]

/-- Settles O33. -/
theorem registerIsTheSumOfItsWords : Obligations.RegisterIsTheSumOfItsWords := fun c v => by
  rw [sum_wordOf_eq_mod, Nat.mod_eq_of_lt v.isLt]

end Sys2Proof.Machine
end

section
/-! The output pins of the randomness port and the bus (R60, R196, R197). -/

namespace Sys2Proof.Machine

variable {W : Nat}

theorem State.outputs_rngReq {s : State} :
    s.outputs.rngReq = true ↔ s.rst = false ∧ s.core.rngPending = true := by
  simp [outputs]

/-- While `rng_req` is 1, the pins show the bounds of the request. -/
theorem State.outputs_bounds {s : State} (h : s.outputs.rngReq = true) :
    s.outputs.rngLo = s.core.rngLo ∧ s.outputs.rngHi = s.core.rngHi := by
  obtain ⟨hr, hpending⟩ := outputs_rngReq.1 h
  simp [outputs, hr, hpending]

/-- The request of a safe state is over `[1, n)` for the candidate in the slot (R197). -/
theorem Aacore.Inv.bounds_of_pending {m : Aacore W} (h : m.Inv) (hpending : m.rngPending = true) :
    ∃ job n, m.phase = .exec job ∧ job.latches.s1 = some n ∧ m.rngLo = 1 ∧ m.rngHi = n := by
  obtain ⟨job, hphase⟩ := m.busy_eq_true.1 (h.pending_busy hpending)
  obtain ⟨i, hjob⟩ := h.slot job hphase
  obtain ⟨-, -, -, -, n, mr, hn, -, -, hreq⟩ := hjob.mrFits_of_mr_or_pending (.inr hpending)
  obtain ⟨-, hlo, hhi⟩ := hreq hpending
  exact ⟨job, n, hphase, hn, hlo, hhi⟩

/-! ## The bounds of a request stay -/

/-- From `m` to `m'`, a request that is outstanding in both has the same bounds in both. -/
def Aacore.BoundsStay (m m' : Aacore W) : Prop :=
  m.rngPending = true → m'.rngPending = true → m'.rngLo = m.rngLo ∧ m'.rngHi = m.rngHi

theorem Aacore.boundsStay_of_eq {m m' : Aacore W} (hlo : m'.rngLo = m.rngLo)
    (hhi : m'.rngHi = m.rngHi) : m.BoundsStay m' := fun _ _ => ⟨hlo, hhi⟩

theorem Aacore.boundsStay_of_withdrawn {m m' : Aacore W} (h : m'.rngPending = false) :
    m.BoundsStay m' := fun _ h' => absurd h' (by simp [h])

theorem Aacore.accept_boundsStay (m : Aacore W) (i : Instr) (check : Option ErrorCode)
    (mr : Option MrState) : m.BoundsStay (m.accept i check mr) := by
  cases check with
  | none => exact boundsStay_of_eq rfl rfl
  | some c => exact boundsStay_of_withdrawn rfl

theorem Aacore.writeCtrl_boundsStay (m : Aacore W) (v : Word) : m.BoundsStay (m.writeCtrl v) := by
  obtain ⟨-, heq⟩ | ⟨-, -, heq⟩ | ⟨-, -, -, heq⟩ := m.writeCtrl_cases v <;> rw [heq]
  · exact boundsStay_of_withdrawn rfl
  · exact boundsStay_of_eq rfl rfl
  · exact boundsStay_of_withdrawn rfl

/-- The engine waits while a request is outstanding (R124), so it makes no other one. -/
theorem EngineEvent.boundsStay {m m' : Aacore W} {job : Job W} {i : Instr}
    (he : EngineEvent m job i m') : m.BoundsStay m' := by
  cases he with
  | wait => exact Aacore.boundsStay_of_eq rfl rfl
  | complete r hpending => exact fun h => by simp [hpending] at h
  | request rd rn imm8 mr n _ hpending => exact fun h => by simp [hpending] at h

theorem CoreStep.boundsStay {K : Nat} {rst rst' : Bool} {e : Event W} {m m' : Aacore W}
    {resp : Option BusResponse} (hstep : CoreStep K rst e m m' rst' resp) : m.BoundsStay m' := by
  cases hstep with
  | release | read | quiet | idleEngine | ignoredAnswer | busError | readOnly | overrun | window
  | status => exact Aacore.boundsStay_of_eq rfl rfl
  | reset | illegal | answer => exact Aacore.boundsStay_of_withdrawn rfl
  | ctrl => exact m.writeCtrl_boundsStay _
  | accept => exact m.accept_boundsStay _ _ _
  | engine job i m' _ _ _ _ hm => exact hm.boundsStay

/-! ## The pins -/

/-- Settles O59: the pins by their definition, the bounds of a safe state's request by the
invariant, and their stability by the list of all changes a step can make. -/
theorem outputPins : Obligations.OutputPins := by
  refine ⟨fun s hr => ?_, fun s hs _ hreq => ?_, fun s t hstep hreq hreq' => ?_⟩
  · refine ⟨by simp [State.outputs, hr], by simp [State.outputs, hr],
      fun hp => State.outputs_bounds (State.outputs_rngReq.2 ⟨hr, hp⟩),
      fun hp => by simp [State.outputs, hp], fun h => by simp [State.outputs, h],
      fun e d h => by simp [State.outputs, h], fun e h => by simp [State.outputs, h]⟩
  · obtain ⟨job, n, hphase, hn, hlo, hhi⟩ := hs.bounds_of_pending (State.outputs_rngReq.1 hreq).2
    obtain ⟨hlo', hhi'⟩ := State.outputs_bounds hreq
    have hW : 0 < s.cfg.W := Nat.mul_pos (by decide) s.cfg.one_le_K
    exact ⟨job, n, hphase, hn, by rw [hlo', hlo]; exact BitVec.toNat_one hW, by rw [hhi', hhi]⟩
  · obtain ⟨hlo, hhi⟩ := State.outputs_bounds hreq
    obtain ⟨hlo', hhi'⟩ := State.outputs_bounds hreq'
    rw [hlo, hhi, hlo', hhi']
    obtain ⟨m, rst, resp, rfl, hm⟩ := step_cases hstep
    obtain ⟨hloStays, hhiStays⟩ := hm.boundsStay (State.outputs_rngReq.1 hreq).2
      (State.outputs_rngReq.1 hreq').2
    exact ⟨congrArg BitVec.toNat hloStays, congrArg BitVec.toNat hhiStays⟩

end Sys2Proof.Machine
end

section
/-! The command word: decoding and encoding are inverse (R90 to R94), the words that are legal and
ILLEGAL for the others (R95, R96), and the assembler's pseudo-instructions (R99). -/

namespace Sys2Proof

/-! ## Decoding and encoding -/

/-- Every encoding is a row of R91: its opcode selects the row, its reserved fields are zero, and
its other fields are the operands. -/
theorem decode_encode (i : Instr) : decode (encode i) = .ok i := by
  rw [encode_eq_sixFields]
  cases i <;>
    simp [decode, ifZero, low4_sixFields, low8_sixFields, low12_sixFields, low24_sixFields,
      mid8_sixFields, imm8_eta]

/-- Settles O1. -/
theorem decodeInvertsEncode : Obligations.DecodeInvertsEncode := decode_encode

/-- Settles O2: the reserved bits of a word that decodes are zero, and the operands are the rest. -/
theorem encodeInvertsDecode : Obligations.EncodeInvertsDecode := fun _ _ => encode_of_decode

/-- Settles O5. -/
theorem specWordsDecode : Obligations.SpecWordsDecode := by
  refine ⟨?_, ?_, ?_, ?_, ?_, ?_, ?_, ?_, ?_⟩ <;> decide

/-! ## The fields of a word, and the mask test on them -/

/-- Words are equal when their opcode bytes and their six fields are. -/
theorem eq_iff_fields (w w' : Word) : w = w' ↔ opField w = opField w' ∧
    w.extractLsb' 20 4 = w'.extractLsb' 20 4 ∧ w.extractLsb' 16 4 = w'.extractLsb' 16 4 ∧
    w.extractLsb' 12 4 = w'.extractLsb' 12 4 ∧ w.extractLsb' 8 4 = w'.extractLsb' 8 4 ∧
    w.extractLsb' 4 4 = w'.extractLsb' 4 4 ∧ w.extractLsb' 0 4 = w'.extractLsb' 0 4 := by
  constructor
  · rintro rfl
    exact ⟨rfl, rfl, rfl, rfl, rfl, rfl, rfl⟩
  · rintro ⟨hop, ha, hb, hc, hd, he, hf⟩
    rw [← sixFields_eta w, ← sixFields_eta w', hop, ha, hb, hc, hd, he, hf]

theorem regField_inj {a b : BitVec 4} : @Eq Reg a.toFin b.toFin ↔ a = b := BitVec.toFin_inj

section
variable (op : BitVec 8) (a b c d e f : BitVec 4)

theorem field20_sixFields : (sixFields op a b c d e f).extractLsb' 20 4 = a :=
  congrArg BitVec.ofFin (fieldA_sixFields op a b c d e f)

theorem field16_sixFields : (sixFields op a b c d e f).extractLsb' 16 4 = b :=
  congrArg BitVec.ofFin (fieldB_sixFields op a b c d e f)

theorem field12_sixFields : (sixFields op a b c d e f).extractLsb' 12 4 = c :=
  congrArg BitVec.ofFin (fieldC_sixFields op a b c d e f)

theorem field8_sixFields : (sixFields op a b c d e f).extractLsb' 8 4 = d :=
  congrArg BitVec.ofFin (fieldD_sixFields op a b c d e f)

theorem field4_sixFields : (sixFields op a b c d e f).extractLsb' 4 4 = e :=
  congrArg BitVec.ofFin (fieldE_sixFields op a b c d e f)

theorem top8_sixFields : (sixFields op a b c d e f).extractLsb' 24 8 = op :=
  opField_sixFields op a b c d e f

/-- A mask test looks at each field of the word by itself. -/
theorem sixFields_and_eq_iff (mask pattern : Word) :
    sixFields op a b c d e f &&& mask = pattern ↔
      op &&& mask.extractLsb' 24 8 = pattern.extractLsb' 24 8 ∧
      a &&& mask.extractLsb' 20 4 = pattern.extractLsb' 20 4 ∧
      b &&& mask.extractLsb' 16 4 = pattern.extractLsb' 16 4 ∧
      c &&& mask.extractLsb' 12 4 = pattern.extractLsb' 12 4 ∧
      d &&& mask.extractLsb' 8 4 = pattern.extractLsb' 8 4 ∧
      e &&& mask.extractLsb' 4 4 = pattern.extractLsb' 4 4 ∧
      f &&& mask.extractLsb' 0 4 = pattern.extractLsb' 0 4 := by
  simp only [eq_iff_fields, opField, BitVec.extractLsb'_and, top8_sixFields, field20_sixFields,
    field16_sixFields, field12_sixFields, field8_sixFields, field4_sixFields, low4_sixFields]

/-- A word passes a row's mask test when it has the row's opcode and its reserved fields are zero
(R95). -/
theorem maskTest_sixFields :
    (∃ row ∈ opcodeTable, sixFields op a b c d e f &&& row.mask = row.pattern) ↔
    (op = 0x00#8 ∧ a = 0#4 ∧ b = 0#4 ∧ c = 0#4 ∧ d = 0#4 ∧ e = 0#4 ∧ f = 0#4) ∨
    (op = 0x10#8 ∧ e = 0#4 ∧ f = 0#4) ∨ (op = 0x11#8 ∧ d = 0#4 ∧ e = 0#4 ∧ f = 0#4) ∨
    (op = 0x12#8 ∧ d = 0#4 ∧ e = 0#4 ∧ f = 0#4) ∨ (op = 0x13#8 ∧ e = 0#4 ∧ f = 0#4) ∨
    (op = 0x20#8 ∧ e = 0#4 ∧ f = 0#4) ∨ (op = 0x30#8 ∧ f = 0#4) ∨
    (op = 0x31#8 ∧ d = 0#4 ∧ e = 0#4 ∧ f = 0#4) ∨ (op = 0x32#8 ∧ d = 0#4 ∧ e = 0#4 ∧ f = 0#4) ∨
    (op = 0x40#8 ∧ d = 0#4 ∧ e = 0#4 ∧ f = 0#4) ∨ (op = 0x41#8 ∧ c = 0#4 ∧ d = 0#4) := by
  have hnibble : ∀ x : BitVec 4, x &&& 0xF#4 = x := fun _ => BitVec.and_allOnes
  have hbyte : ∀ x : BitVec 8, x &&& 0xFF#8 = x := fun _ => BitVec.and_allOnes
  simp [opcodeTable, sixFields_and_eq_iff, hnibble, hbyte]

end

/-! ## Legal words -/

theorem legal_iff (w : Word) : legal w = true ↔ ∃ i, decode w = .ok i ∧ i.wellFormed = true := by
  unfold legal
  cases decode w <;> simp

theorem ifZero_eq_ok_iff {w : Word} {lo len : Nat} {i j : Instr} :
    ifZero w lo len i = .ok j ↔ w.extractLsb' lo len = 0 ∧ j = i := by
  unfold ifZero
  split <;> simp_all [eq_comm]

/-- R95's three conditions on the opcode and the fields, one case for each format of R91. -/
theorem legal_sixFields (op : BitVec 8) (a b c d e f : BitVec 4) :
    legal (sixFields op a b c d e f) = true ↔
    (op = 0x00#8 ∧ a = 0#4 ∧ b = 0#4 ∧ c = 0#4 ∧ d = 0#4 ∧ e = 0#4 ∧ f = 0#4) ∨
    ((op = 0x10#8 ∨ op = 0x13#8 ∨ op = 0x20#8) ∧ e = 0#4 ∧ f = 0#4) ∨
    ((op = 0x11#8 ∨ op = 0x12#8 ∨ op = 0x31#8 ∨ op = 0x32#8 ∨ op = 0x40#8) ∧
      d = 0#4 ∧ e = 0#4 ∧ f = 0#4) ∨
    (op = 0x30#8 ∧ f = 0#4 ∧ a ≠ b ∧ a ≠ c ∧ b ≠ c) ∨
    (op = 0x41#8 ∧ c = 0#4 ∧ d = 0#4) := by
  rw [legal_iff]
  unfold decode
  rw [opField_sixFields]
  split
  case h_12 => simp_all
  all_goals
    simp [ifZero_eq_ok_iff, low4_sixFields, low8_sixFields, low12_sixFields, low24_sixFields,
      mid8_sixFields, append2_eq_zero, append3_eq_zero, append6_eq_zero, Instr.wellFormed,
      regField_inj, and_assoc]

end Sys2Proof

namespace Sys2Proof.Machine

/-- R95's condition 3 is EGCD's acceptance check. -/
theorem acceptCheck_of_not_wellFormed {W : Nat} {i : Instr} (m : Aacore W)
    (h : i.wellFormed = false) : acceptCheck i m = some .illegal := by
  cases i with
  | egcd rg rx ry ra rb =>
    simp only [Instr.wellFormed, Bool.and_eq_false_iff, bne_eq_false_iff_eq] at h
    exact if_pos (or_assoc.1 h)
  | _ => simp [Instr.wellFormed] at h

/-- A word that is not legal, written to CMD while IDLE, ends in ILLEGAL: the decoder rejects it, or
EGCD's check does. -/
theorem step_illegal {s : State} {w : Word} (hw : legal w = false) (hr : s.rst = false)
    (hphase : s.core.phase = .idle) (he : s.nextEvent = .host (.write 0x0008#16 w)) :
    step s = .next { s with
      inputs := s.inputs.tail
      response := some (.write false)
      core := s.core.endedInError w .illegal } := by
  rw [step_cmd hr he]
  simp only [State.issue, s.core.busy_idle hphase, Bool.false_eq_true, if_false]
  split
  case h_1 i hdec =>
    have hwf : i.wellFormed = false := by simpa [legal, hdec] using hw
    rw [exec_idle i _ (by exact hphase), acceptCheck_of_not_wellFormed _ hwf, Aacore.accept_error,
      encode_of_decode hdec]
    rfl
  case h_2 => rfl

/-- Settles O3: the conditions on the bits are those on the fields; each row's mask test is its
opcode and its reserved fields; and the step is `step_illegal`. -/
theorem legalWordsAndIllegalOnes : Obligations.LegalWordsAndIllegalOnes := by
  refine ⟨fun w => ?_, fun w => ?_, fun s w => step_illegal⟩
  · obtain ⟨op, a, b, c, d, e, f, rfl⟩ := exists_sixFields w
    simp only [legal_sixFields, top8_sixFields, low4_sixFields, low8_sixFields, low12_sixFields,
      low24_sixFields, mid8_sixFields, field20_sixFields, field16_sixFields, field12_sixFields,
      BitVec.ofNat_eq_ofNat, append2_eq_zero, append3_eq_zero, append6_eq_zero]
  · obtain ⟨op, a, b, c, d, e, f, rfl⟩ := exists_sixFields w
    rw [legal_sixFields, maskTest_sixFields, top8_sixFields, field20_sixFields, field16_sixFields,
      field12_sixFields]
    by_cases hegcd : op = 0x30#8
    · simp [hegcd]
    · simp only [hegcd, false_and, false_or, IsEmpty.forall_iff, and_true, or_and_right, or_assoc]
      refine iff_of_eq ?_
      ac_rfl

/-! ## Reserved opcodes -/

/-- The decoder rejects an opcode that no row of the opcode table has (R94, R96). -/
theorem decode_eq_reservedOpcode_iff (w : Word) :
    decode w = .reject .reservedOpcode ↔ ∀ row ∈ opcodeTable, opField w ≠ opField row.pattern := by
  have hifZero : ∀ lo len i, ifZero w lo len i ≠ .reject .reservedOpcode := by
    intro lo len i
    unfold ifZero
    split <;> simp
  unfold decode
  split <;> simp_all [opcodeTable, opField]

/-- Settles O4: the opcodes of the table are those outside the five ranges, and a word with another
opcode is not legal. -/
theorem reservedOpcodesAreIllegal : Obligations.ReservedOpcodesAreIllegal := by
  refine ⟨by decide +kernel, fun w => ⟨?_, fun hdec s => step_illegal (by simp [legal, hdec])⟩⟩
  rw [decode_eq_reservedOpcode_iff]
  have hlt := (opField w).isLt
  generalize opField w = op at hlt ⊢
  simp [opcodeTable, opField, ← BitVec.toNat_inj]
  omega

/-! ## Pseudo-instructions -/

/-- Settles O6. -/
theorem pseudoInstructionsExpand : Obligations.PseudoInstructionsExpand :=
  fun _ _ _ _ => ⟨rfl, rfl, rfl, rfl, rfl⟩

end Sys2Proof.Machine
end

section
/-! The host line `ld` (R67, R100): its writes, one at a time, and the value they make. -/

namespace Sys2Proof.Machine

variable {W : Nat}

/-- Word `j` of the value that `ld` loads (R67, R100). -/
def ldWord (v j : Nat) : Word := BitVec.ofNat 32 (v / 2 ^ (32 * j))

/-- The register value `x` after the words of `v` with the numbers in `js` are written to it. -/
def loadWords (v : Nat) (js : List Nat) (x : BitVec W) : BitVec W :=
  js.foldl (fun x j => withWord x j (ldWord v j)) x

@[simp] theorem loadWords_nil (v : Nat) (x : BitVec W) : loadWords v [] x = x := rfl

@[simp] theorem loadWords_cons (v j : Nat) (js : List Nat) (x : BitVec W) :
    loadWords v (j :: js) x = loadWords v js (withWord x j (ldWord v j)) := rfl

theorem getLsbD_ldWord {v j b : Nat} (h : b / 32 = j) :
    (ldWord v j).getLsbD (b - 32 * j) = v.testBit b := by
  rw [ldWord, BitVec.getLsbD_ofNat, Nat.testBit_div_two_pow, Nat.sub_add_cancel (by omega),
    decide_eq_true (by omega), Bool.true_and]

/-- The words written are those of `v`, and the other words are kept. -/
theorem getLsbD_loadWords (v : Nat) (js : List Nat) (hjs : ∀ j ∈ js, 32 * j + 32 ≤ W)
    (x : BitVec W) (b : Nat) :
    (loadWords v js x).getLsbD b = if b / 32 ∈ js then v.testBit b else x.getLsbD b := by
  induction js generalizing x with
  | nil => simp
  | cons j js ih =>
    rw [List.forall_mem_cons] at hjs
    have hb : (32 * j ≤ b ∧ b < 32 * j + 32) ↔ b / 32 = j := by omega
    rw [loadWords_cons, ih hjs.2, getLsbD_withWord _ _ _ _ hjs.1]
    by_cases hj : b / 32 = j
    · simp [hb, hj, getLsbD_ldWord hj]
    · simp [hb, hj]

/-- All K words together are the value. -/
theorem loadWords_range (v K : Nat) (x : BitVec (32 * K)) :
    loadWords v (List.range K) x = BitVec.ofNat (32 * K) v := by
  refine BitVec.eq_of_getLsbD_eq fun b hb => ?_
  have hmem : b / 32 ∈ List.range K := List.mem_range.2 (by omega)
  rw [getLsbD_loadWords v _ (fun j hj => by rw [List.mem_range] at hj; omega), if_pos hmem]
  rw [BitVec.getLsbD_ofNat, decide_eq_true hb, Bool.true_and]

/-- One write of `ld`, taken while IDLE, replaces one word of the register. -/
theorem step_windowWrite {s : State} {i : Reg} {j : Nat} {d : Word} {es : List (Event s.cfg.W)}
    (hr : s.rst = false) (hidle : s.core.phase = .idle) (hj : j < s.cfg.K)
    (hin : s.inputs = .host (.write (windowAddr i j) d) :: es) :
    step s = .next { s with
      inputs := es
      response := some (.write false)
      core := s.core.setReg i (withWord (s.core.reg i) j d) } := by
  have hK := s.cfg.K_le_64
  have haddr : (windowAddr i j).toNat = 0x1000 + 0x100 * i.val + 4 * j := by
    rw [windowAddr, BitVec.toNat_ofNat]
    omega
  have he : s.nextEvent = .host (.write (windowAddr i j) d) := by simp [State.nextEvent, hin]
  rw [step_write_target hr he (decodeAddr_window hK hj haddr)
    (by simp)]
  simp [Aacore.writeTarget, Aacore.writeWindow, hidle, hin]

@[simp] theorem Aacore.setReg_setReg (m : Aacore W) (r : Reg) (u v : BitVec W) :
    (m.setReg r u).setReg r v = m.setReg r v := by
  simp [setReg]

@[simp] theorem Aacore.setReg_reg_self (m : Aacore W) (r : Reg) :
    m.setReg r (m.reg r) = m := by
  simp [setReg, reg, Vector.get_eq_getElem]

/-- A run begins with its first step. -/
theorem run_of_step (M : Host.Core) {s t : M.State} (h : M.step s = .next t) (k : Nat) :
    M.run (k + 1) s = M.run k t := by
  simp [Host.Core.run, h]

/-- The writes of `ld`, taken one after the other while IDLE. -/
theorem run_windowWrites (v : Nat) (i : Reg) (js : List Nat) (s : State)
    {rest : List (Event s.cfg.W)} (hr : s.rst = false) (hidle : s.core.phase = .idle)
    (hjs : ∀ j ∈ js, j < s.cfg.K)
    (hin : s.inputs =
      js.map (fun j => .host (.write (windowAddr i j) (ldWord v j))) ++ rest) :
    Sys2Proof.core.run js.length s = .next { s with
      inputs := rest
      response := if js = [] then s.response else some (.write false)
      core := s.core.setReg i (loadWords v js (s.core.reg i)) } := by
  induction js generalizing s with
  | nil =>
    obtain rfl : s.inputs = rest := hin
    simp [Host.Core.run]
  | cons j js ih =>
    rw [List.forall_mem_cons] at hjs
    refine (run_of_step core (step_windowWrite hr hidle hjs.1 hin) js.length).trans ?_
    refine (ih _ ?_ ?_ ?_ rfl).trans ?_
    · exact hr
    · exact hidle
    · exact hjs.2
    · simp

/-- Settles O52: the writes one after the other, and then all K words are the value's. -/
theorem hostLdLoadsTheRegister : Obligations.HostLdLoadsTheRegister := by
  intro s i v rest hr hidle hv hin
  refine ⟨BitVec.ofNat _ v, by rw [BitVec.toNat_ofNat, Nat.mod_eq_of_lt hv], ?_⟩
  have hK : List.range s.cfg.K ≠ [] := by simp [Nat.ne_of_gt s.cfg.one_le_K]
  have hrun := run_windowWrites v i (List.range s.cfg.K) s hr hidle (by simp) hin
  rw [List.length_range, if_neg hK, loadWords_range] at hrun
  exact hrun

end Sys2Proof.Machine
end

section
/-! The steps that start and run a command (R63, R120, R121, R124), and which commands are accepted
with which operands (R120, R122). -/

namespace Sys2Proof.Machine

variable {W : Nat}

/-! ## The steps -/

/-- A CMD write while IDLE is the command its word decodes to (R120). -/
theorem State.issue_of_decode {s : State} {w : Word} {i : Instr} (hidle : s.core.phase = .idle)
    (hdec : decode w = .ok i) : s.issue w = exec i s := by
  simp [issue, s.core.busy_idle hidle, hdec]

/-- A CMD write while EXEC sets OVR, whatever the word (R121). -/
theorem State.issue_of_exec {s : State} {job : Job s.cfg.W} (w : Word)
    (hexec : s.core.phase = .exec job) : s.issue w = .next (s.setCore s.core.overrun) := by
  simp [issue, s.core.busy_exec hexec]

theorem State.engineEvent_of_decode {s : State} {job : Job s.cfg.W} {i : Instr}
    (hexec : s.core.phase = .exec job) (hdec : decode job.cur = .ok i) :
    s.engineEvent = exec i s := by
  simp [engineEvent, hexec, hdec]

/-- `step_cmd` for a word that decodes, while IDLE. -/
theorem step_cmd_of_decode {s : State} {w : Word} {i : Instr} (hr : s.rst = false)
    (hidle : s.core.phase = .idle) (he : s.nextEvent = .host (.write 0x0008#16 w))
    (hdec : decode w = .ok i) :
    step s = exec i { s with inputs := s.inputs.tail, response := some (.write false) } := by
  rw [step_cmd hr he]
  exact State.issue_of_decode (by exact hidle) hdec

theorem decode_of_decodeTableWord {nbits w : Nat} {i : Instr}
    (h : decodeTableWord nbits w = some i) : decode (BitVec.ofNat 32 (w % 2 ^ nbits)) = .ok i := by
  unfold decodeTableWord at h
  split at h
  · rename_i j hdec
    rw [hdec, Option.some.inj h]
  · cases h

/-- Settles O7: the third clause is the first one, in the state that `withFetchWord` makes. -/
theorem stepRunsTheDecodedCommand : Obligations.StepRunsTheDecodedCommand := by
  refine ⟨fun s w i => step_cmd_of_decode, fun s job i hr hexec hdec he => ?_,
    fun s nbits w i hw => ?_⟩
  · rw [step_engine hr he]
    exact State.engineEvent_of_decode (by exact hexec) hdec
  · exact step_cmd_of_decode rfl rfl rfl (decode_of_decodeTableWord hw)

/-- Settles O8. -/
theorem busyDropsCommandWrites : Obligations.BusyDropsCommandWrites := by
  intro s job w hr hexec he
  rw [step_cmd hr he]
  exact State.issue_of_exec w (by exact hexec)

/-! ## Acceptance -/

/-- A command that passes its check is in execution with its operands captured (R120). -/
theorem exec_accepts {i : Instr} {s : State} (hidle : s.core.phase = .idle)
    (hcheck : acceptCheck i s.core = none) :
    exec i s = .next (s.setCore
      (s.core.inExecution i (s.core.capture (sources i)) (acceptMr i s.core))) := by
  rw [exec_idle i s hidle, hcheck]
  rfl

/-- Settles O9. -/
theorem nopAndModexpAreAccepted : Obligations.NopAndModexpAreAccepted := fun _s hidle =>
  ⟨exec_accepts hidle rfl, fun _rd _ra _re _rn hn => exec_accepts hidle (if_neg (by omega))⟩

theorem montmulCheck_eq_none {a b n : Nat} (hn : n % 2 = 1) (ha : a < n) (hb : b < n) :
    montmulCheck a b n = none := by
  rw [montmulCheck, if_neg (by omega), if_neg (by omega)]

theorem montFormCheck_eq_none {a n : Nat} (hn : n % 2 = 1) (ha : a < n) :
    montFormCheck a n = none := by
  rw [montFormCheck, if_neg (by omega), if_neg (by omega)]

/-- Settles O10. -/
theorem montgomeryCommandsAreAccepted : Obligations.MontgomeryCommandsAreAccepted :=
  fun _s hidle _rd _ra _rb _rn =>
    ⟨fun hn ha hb => exec_accepts hidle (montmulCheck_eq_none hn ha hb),
      fun hn ha => ⟨exec_accepts hidle (montFormCheck_eq_none hn ha),
        exec_accepts hidle (montFormCheck_eq_none hn ha)⟩,
      fun hn => exec_accepts hidle (if_neg hn)⟩

/-- Settles O11. -/
theorem gcdCommandsAreAccepted : Obligations.GcdCommandsAreAccepted :=
  fun _s hidle _rd _rx _ry _ra _rb =>
    ⟨exec_accepts hidle rfl,
      fun hx hy hxy => exec_accepts hidle (if_neg (not_or.2 ⟨hx, not_or.2 ⟨hy, hxy⟩⟩)),
      fun hn => exec_accepts hidle (if_neg hn)⟩

theorem mrroundCheck_eq_none {n a : Nat} (hodd : n % 2 = 1) (hn : 3 ≤ n) (ha : 1 ≤ a)
    (han : a < n) : mrroundCheck n a = none := by
  rw [mrroundCheck, if_neg (by omega), if_neg (by omega)]

/-- R192: MRTEST starts undecided for an odd candidate above 2, and decided for any other. -/
theorem mrtestStart_verdict (n : Nat) (imm8 : BitVec 8) :
    (n < 2 → (mrtestStart n imm8).verdict = .composite) ∧
    (n = 2 → (mrtestStart n imm8).verdict = .probablePrime) ∧
    (2 < n → n % 2 = 0 → (mrtestStart n imm8).verdict = .composite) ∧
    (2 < n → n % 2 = 1 → (mrtestStart n imm8).verdict = .undecided) := by
  refine ⟨fun hn => if_pos hn, fun hn => ?_, fun hn h2 => ?_, fun hn h2 => ?_⟩ <;>
    rw [mrtestStart, if_neg (by omega)]
  · exact if_pos hn
  · rw [if_neg (by omega), if_pos h2]
  · rw [if_neg (by omega), if_neg (by omega)]

/-- Settles O12. -/
theorem millerRabinCommandsAreAccepted : Obligations.MillerRabinCommandsAreAccepted := by
  refine fun s hidle rd rn ra => ⟨fun hodd hn ha han =>
    exec_accepts hidle (mrroundCheck_eq_none hodd hn ha han), fun imm8 => ?_⟩
  obtain ⟨hsmall, htwo, heven, hodd⟩ := mrtestStart_verdict (s.core.reg rn).toNat imm8
  exact ⟨_, hsmall, htwo, heven, hodd, exec_accepts hidle rfl⟩

end Sys2Proof.Machine
end

section
/-! The values that the commands write: the inverse of the Montgomery radix (R140), the power (R160),
the round of the strong test (R190), and the words of a result (R9). -/

namespace Sys2Proof.Machine

variable {W : Nat}

/-! ## The inverse of the radix -/

/-- R140: the radix is a power of two, so it has an inverse modulo any odd n. -/
theorem coprime_radix_mod {n : Nat} (W : Nat) (hn : n % 2 = 1) : Nat.gcd (radix W % n) n = 1 := by
  rw [radix, (Nat.mod_modEq _ n).gcd_eq]
  exact (Nat.coprime_two_left.2 (Nat.odd_iff.2 hn)).pow_left W

theorem radixInv_lt {n : Nat} (W : Nat) (hn : n % 2 = 1) : radixInv W n < n :=
  inv_lt_modulus (by omega) _

theorem radix_mul_radixInv {n : Nat} (W : Nat) (hn : n % 2 = 1) :
    2 ^ W * radixInv W n ≡ 1 [MOD n] :=
  ((Nat.mod_modEq (radix W) n).symm.mul_right _).trans
    (mul_inv_modEq_one (by omega) (coprime_radix_mod W hn))

/-! ## The power -/

/-- R161's square-and-multiply computes R160's power: after all bits, the base is raised to e. -/
theorem powMod_eq {n : Nat} (a e : Nat) (hn : 1 < n) : powMod a e n = a ^ e % n := by
  have hloop := powLoop_modEq a e n (bitlen e) 1
  rw [one_pow, one_mul, Nat.mod_eq_of_lt (lt_two_pow_bitlen e)] at hloop
  rw [← hloop, powMod, Nat.mod_eq_of_lt (powLoop_lt hn)]

/-! ## The round of the strong test -/

/-- R190's splitting finds the given one, because the odd part stops it. -/
theorem splitTwos_two_pow_mul {k fuel d : Nat} (hd : d % 2 = 1) (hk : k ≤ fuel) :
    splitTwos fuel (2 ^ k * d) = (k, d) := by
  induction k generalizing fuel with
  | zero => cases fuel <;> simp [splitTwos, hd]
  | succ k ih =>
    obtain ⟨fuel, rfl⟩ : ∃ f, fuel = f + 1 := ⟨fuel - 1, by omega⟩
    have heven : 2 ^ (k + 1) * d = 2 * (2 ^ k * d) := by ring
    simp [splitTwos, heven, ih (Nat.le_of_succ_le_succ hk)]

/-- The number of twos in m is below m's bit length, which is the fuel of `mrRound`. -/
theorem le_bitlen_two_pow_mul {k d : Nat} (hd : d % 2 = 1) : k ≤ bitlen (2 ^ k * d) := by
  have hle : 2 ^ k ≤ 2 ^ k * d := Nat.le_mul_of_pos_right _ (by omega)
  exact ((Nat.pow_lt_pow_iff_right (by decide)).1 (hle.trans_lt (lt_two_pow_bitlen _))).le

theorem sq_mod_pow_two_pow (x n j : Nat) :
    (x * x % n) ^ 2 ^ j % n = x ^ 2 ^ (j + 1) % n := by
  rw [← Nat.pow_mod, ← sq, ← pow_mul, ← pow_succ']

/-- R190's loop answers 1 when one of the squarings of x gives n - 1. Its early exit at 1 misses
none, because every later square is 1 too. -/
theorem squareLoop_eq_true_iff {n : Nat} (hn : 3 ≤ n) (left x : Nat) :
    squareLoop n left x = true ↔ ∃ j < left, x ^ 2 ^ (j + 1) % n = n - 1 := by
  induction left generalizing x with
  | zero => simp [squareLoop]
  | succ left ih =>
    have hfirst : x * x % n = x ^ 2 ^ (0 + 1) % n := by rw [zero_add, pow_one, sq]
    rw [Nat.exists_lt_succ_left, ← hfirst]
    simp only [squareLoop, ← sq_mod_pow_two_pow x n (_ + 1)]
    split
    · rename_i hminus
      simp [hminus]
    · rename_i hminus
      split
      · rename_i hone
        have hlast : 1 % n ≠ n - 1 := by rw [Nat.mod_eq_of_lt (by omega)]; omega
        simp [hone, hlast, show 1 ≠ n - 1 by omega]
      · rw [ih]
        simp [hminus]

/-- R190's round, for `n - 1 = 2^k * d` with d odd: the strong test of n with witness a. -/
theorem mrRound_eq_true_iff {n a k d : Nat} (hn : 3 ≤ n) (hsplit : n - 1 = 2 ^ k * d)
    (hk : 1 ≤ k) (hd : d % 2 = 1) : mrRound n a = true ↔
      a ^ d % n = 1 ∨ ∃ j < k, a ^ (2 ^ j * d) % n = n - 1 := by
  have hkd : splitTwos (bitlen (n - 1)) (n - 1) = (k, d) := by
    rw [hsplit]
    exact splitTwos_two_pow_mul hd (le_bitlen_two_pow_mul hd)
  have hpow : ∀ j, (a ^ d % n) ^ 2 ^ j % n = a ^ (2 ^ j * d) % n := fun j => by
    rw [← Nat.pow_mod, ← pow_mul, mul_comm]
  obtain ⟨k, rfl⟩ : ∃ k', k = k' + 1 := ⟨k - 1, by omega⟩
  simp only [mrRound, hkd, powMod_eq a d (show 1 < n by omega), Nat.exists_lt_succ_left, pow_zero,
    one_mul, Nat.add_sub_cancel, ← or_assoc]
  split
  · rename_i hx
    simp [hx]
  · rename_i hx
    simp only [squareLoop_eq_true_iff hn, hpow, hx, false_or]

/-! ## Words -/

theorem toNat_ofNat_of_lt {x : Nat} (hx : x < 2 ^ W) : (BitVec.ofNat W x).toNat = x := by
  rw [BitVec.toNat_ofNat, Nat.mod_eq_of_lt hx]

/-- A residue modulo a W-bit number is a W-bit number. -/
theorem mod_toNat_lt {n : BitVec W} (x : Nat) (hn : 0 < n.toNat) : x % n.toNat < 2 ^ W :=
  (Nat.mod_lt x hn).trans n.isLt

/-- A divisor of two W-bit numbers is one of them at most, so it fits W bits; so does gcd(0, 0). -/
theorem gcd_toNat_lt (a b : BitVec W) : Nat.gcd a.toNat b.toNat < 2 ^ W := by
  rcases Nat.eq_zero_or_pos a.toNat with ha | ha
  · rw [ha, Nat.gcd_zero_left]; exact b.isLt
  · exact (Nat.gcd_le_left _ ha).trans_lt a.isLt

theorem fitsSigned_eq_true_iff (z : Int) :
    fitsSigned W z = true ↔ -(2 : Int) ^ (W - 1) ≤ z ∧ z < (2 : Int) ^ (W - 1) := by
  simp [fitsSigned]

end Sys2Proof.Machine
end

section
/-! What each command other than MRTEST completes with (R124). -/

namespace Sys2Proof.Machine

/-- The completion of a command with one destination, for a result that is a W-bit number (R124). -/
theorem exec_finishes_nat {s : State} {job : Job s.cfg.W} {i : Instr} {rd : Reg} {x : Nat}
    (hexec : s.core.phase = .exec job) (hq : s.core.rngPending = false)
    (hresult : slotResult i job = some (.ok [(rd, BitVec.ofNat s.cfg.W x)]))
    (hx : x < 2 ^ s.cfg.W) (hi : ∀ rd rn imm8, i ≠ .mrtest rd rn imm8) :
    ∃ v : BitVec s.cfg.W, v.toNat = x ∧ exec i s = .next (s.setCore (s.core.finished rd v)) :=
  ⟨_, toNat_ofNat_of_lt hx, exec_of_slotResult hexec hq hresult hi⟩

/-- Settles O14. -/
theorem nopCompletes : Obligations.NopCompletes := fun _s _job hexec hq =>
  exec_of_slotResult (i := .nop) hexec hq rfl nofun

/-! ## The montgomery_multiplier and the binary_modexp_engine -/

/-- Settles O15, with `radixInv` for Rinv. -/
theorem montmulCompletes : Obligations.MontmulCompletes := by
  intro s job rd ra rb rn a b n hexec hq ha hb hn hodd
  have hresult : slotResult (.montmul rd ra rb rn) job = some (.ok [(rd,
      BitVec.ofNat _ (a.toNat * b.toNat * radixInv s.cfg.W n.toNat % n.toNat))]) := by
    simp [slotResult, ha, hb, hn, mont]
  obtain ⟨v, hv, hstep⟩ := exec_finishes_nat hexec hq hresult (mod_toNat_lt _ (by omega)) nofun
  exact ⟨_, v, radixInv_lt _ hodd, radix_mul_radixInv _ hodd, hv, hstep⟩

/-- Settles O16. -/
theorem tomontCompletes : Obligations.TomontCompletes := by
  intro s job rd ra rn a n hexec hq ha hn hodd
  exact exec_finishes_nat hexec hq (by simp [slotResult, ha, hn, toMont, radix])
    (mod_toNat_lt _ (by omega)) nofun

/-- Settles O17, with `radixInv` for Rinv. -/
theorem frommontCompletes : Obligations.FrommontCompletes := by
  intro s job rd ra rn a n hexec hq ha hn hodd
  have hresult : slotResult (.frommont rd ra rn) job = some (.ok [(rd,
      BitVec.ofNat _ (a.toNat * radixInv s.cfg.W n.toNat % n.toNat))]) := by
    simp [slotResult, ha, hn, fromMont]
  obtain ⟨v, hv, hstep⟩ := exec_finishes_nat hexec hq hresult (mod_toNat_lt _ (by omega)) nofun
  exact ⟨_, v, radixInv_lt _ hodd, radix_mul_radixInv _ hodd, hv, hstep⟩

/-- Settles O18. -/
theorem modmulCompletes : Obligations.ModmulCompletes := by
  intro s job rd ra rb rn a b n hexec hq ha hb hn hne
  exact exec_finishes_nat hexec hq (by simp [slotResult, ha, hb, hn])
    (mod_toNat_lt _ (by omega)) nofun

/-- Settles O19. -/
theorem modexpCompletes : Obligations.ModexpCompletes := by
  intro s job rd ra re rn a e n hexec hq ha he hn hn1
  exact exec_finishes_nat hexec hq (by simp [slotResult, ha, he, hn, powMod_eq _ _ hn1])
    (mod_toNat_lt _ (by omega)) nofun

/-! ## The euclidean_gcd_unit -/

/-- Settles O22. -/
theorem gcdCompletes : Obligations.GcdCompletes := by
  intro s job rd ra rb a b hexec hq ha hb
  exact exec_finishes_nat hexec hq (by simp [slotResult, ha, hb, egcd_g_eq_gcd])
    (gcd_toNat_lt a b) nofun

/-- R173's result for a coprime operand; the case n = 1 apart gives the same 0. -/
theorem modinvResult_of_coprime {W : Nat} (rd : Reg) {a n : BitVec W} (hn : n.toNat ≠ 0)
    (hgcd : Nat.gcd a.toNat n.toNat = 1) :
    modinvResult rd a n = .ok [(rd, BitVec.ofNat W (inv a.toNat n.toNat))] := by
  rw [modinvResult, egcd_g_eq_gcd, if_neg (not_not.2 hgcd)]
  split
  · rename_i hone
    have hzero : inv a.toNat n.toNat = 0 := by
      have hlt := inv_lt_modulus (Nat.pos_of_ne_zero hn) a.toNat
      omega
    rw [hzero]
    rfl
  · rfl

theorem modinvResult_of_not_coprime {W : Nat} (rd : Reg) {a n : BitVec W}
    (hgcd : Nat.gcd a.toNat n.toNat ≠ 1) : modinvResult rd a n = .err .noinv := by
  rw [modinvResult, egcd_g_eq_gcd, if_pos hgcd]

/-- Settles O23. -/
theorem modinvCompletes : Obligations.ModinvCompletes := by
  intro s job rd ra rn a n hexec hq ha hn hne
  have hresult : slotResult (.modinv rd ra rn) job = some (modinvResult rd a n) := by
    simp [slotResult, ha, hn]
  refine ⟨fun hgcd => ?_, fun hgcd => ?_⟩
  · have hpos : 1 ≤ n.toNat := Nat.pos_of_ne_zero hne
    have hlt := inv_lt_modulus hpos a.toNat
    rw [modinvResult_of_coprime rd hne hgcd] at hresult
    obtain ⟨v, hv, hstep⟩ := exec_finishes_nat hexec hq hresult (hlt.trans n.isLt) nofun
    exact ⟨v, hv ▸ hlt, hv ▸ mul_inv_modEq_one hpos hgcd, hstep⟩
  · rw [modinvResult_of_not_coprime rd hgcd] at hresult
    exact exec_of_slotResult hexec hq hresult nofun

@[simp] theorem Aacore.reg_complete_ok {W : Nat} (m : Aacore W) (ws : List (Reg × BitVec W))
    (q : Reg) : (m.complete (.ok ws)).reg q = (m.commit ws).reg q := rfl

/-- A completion with three different destinations gives each its value (R171). -/
theorem Aacore.reg_complete_three {W : Nat} (m : Aacore W) {r1 r2 r3 : Reg} (v1 v2 v3 : BitVec W)
    (h12 : r1 ≠ r2) (h13 : r1 ≠ r3) (h23 : r2 ≠ r3) :
    (m.complete (.ok [(r1, v1), (r2, v2), (r3, v3)])).reg r1 = v1 ∧
    (m.complete (.ok [(r1, v1), (r2, v2), (r3, v3)])).reg r2 = v2 ∧
    (m.complete (.ok [(r1, v1), (r2, v2), (r3, v3)])).reg r3 = v3 := by
  simp [reg_setReg, h12, h13, h23]

/-- Settles O20: both coefficients fit, so their words are theirs, and Bezout's identity is that of
the recursion. -/
theorem egcdCompletes : Obligations.EgcdCompletes := by
  intro s job rg rx ry ra rb a b hexec hq ha hb hgx hgy hxy hx hx' hy hy'
  have hresult : slotResult (.egcd rg rx ry ra rb) job = some (.ok
      [(rg, BitVec.ofNat _ (Nat.gcd a.toNat b.toNat)), (rx, tcW _ (egcd a.toNat b.toNat).x),
        (ry, tcW _ (egcd a.toNat b.toNat).y)]) := by
    simp [slotResult, ha, hb, egcdResult, fitsSigned_eq_true_iff, hx, hx', hy, hy', egcd_g_eq_gcd]
  have hW : 0 < s.cfg.W := Nat.mul_pos (by decide) s.cfg.one_le_K
  have hg := toNat_ofNat_of_lt (gcd_toNat_lt a b)
  have hbezout := egcd_bezout a.toNat b.toNat
  rw [egcd_g_eq_gcd] at hbezout
  refine ⟨_, exec_of_slotResult hexec hq hresult nofun, ?_, ?_⟩
  · rw [Aacore.complete_ok, Aacore.commit_eq]
  · obtain ⟨hregG, hregX, hregY⟩ := s.core.reg_complete_three _ _ _ hgx hgy hxy
    rw [hregG, hregX, hregY, hg, tcW, tcW, BitVec.toInt_ofInt_eq_self hW hx hx',
      BitVec.toInt_ofInt_eq_self hW hy hy']
    exact ⟨rfl, rfl, rfl, hbezout, fun q hqg hqx hqy => Aacore.commit_reg_of_not_mem _ _ q
      (by simp [hqg.symm, hqx.symm, hqy.symm])⟩

/-! ## MRROUND -/

/-- Settles O24. -/
theorem mrroundCompletes : Obligations.MrroundCompletes := by
  intro s job rd rn ra n a k d hexec hq hn ha hn3 _ _ hsplit hk hd
  have hone : (mrRound n.toNat a.toNat).toNat < 2 ^ s.cfg.W :=
    (Bool.toNat_le _).trans_lt ((by omega : 1 < n.toNat).trans n.isLt)
  have hresult : slotResult (.mrround rd rn ra) job = some (.ok [(rd,
      BitVec.ofNat _ (mrRound n.toNat a.toNat).toNat)]) := by
    simp [slotResult, hn, ha]
  obtain ⟨v, hv, hstep⟩ := exec_finishes_nat hexec hq hresult hone nofun
  rw [← mrRound_eq_true_iff hn3 hsplit hk hd]
  refine ⟨v, fun hpass => ?_, fun hfail => ?_, hstep⟩
  · rw [hv, hpass, Bool.toNat_true]
  · rw [hv, Bool.eq_false_iff.2 hfail, Bool.toNat_false]

end Sys2Proof.Machine
end

section
/-! The engine event of every command as an action on AACORE that the slot alone decides (R122, R124,
R197), and what follows from it: MRTEST's events, and that no later register value matters. -/

namespace Sys2Proof.Machine

variable {W : Nat}

/-! ## The action of an engine event -/

/-- What an engine event can do. `EngineEvent` lists the states it can lead to; here it is a function
of the slot, so that the events of two states with one slot can be compared. -/
inductive EngineAction (W : Nat) where
  /-- nothing, while a request is outstanding -/
  | wait
  /-- the request of a witness below the candidate `n` (R197) -/
  | request (n : BitVec W)
  /-- the completion with the result `r` (R124) -/
  | complete (r : CommandResult W)

/-- The effect of an action on AACORE's state. -/
def EngineAction.apply (m : Aacore W) : EngineAction W → Aacore W
  | .wait => m
  | .request n => m.request n
  | .complete r => m.complete r

/-- The action of the command `i` with `job` in the slot, none where the slot lacks what `i` reads.
It reads no register. -/
def engineAction (i : Instr) (job : Job W) (pending : Bool) : Option (EngineAction W) :=
  if pending then some .wait
  else match i with
    | .mrtest rd _ _ => do
      let mr ← job.mr
      let n ← job.latches.s1
      some ((mrtestResult W rd mr.verdict).elim (.request n) .complete)
    | i => (slotResult i job).map .complete

/-- The outcome of an action, or of none. -/
def State.act (s : State) : Option (EngineAction s.cfg.W) → Host.Outcome State Fault Refusal
  | some a => .next (s.setCore (a.apply s.core))
  | none => .fault .meaninglessEngineState

theorem State.command_eq_act (s : State) (i : Instr) (check : Option ErrorCode)
    (result : Latches s.cfg.W → Option (CommandResult s.cfg.W)) {job : Job s.cfg.W}
    (hexec : s.core.phase = .exec job) : s.command i check result =
      s.act (if s.core.rngPending then some .wait else (result job.latches).map .complete) := by
  cases hq : s.core.rngPending <;> cases hr : result job.latches <;>
    simp [command, hexec, hq, hr, act, EngineAction.apply, setCore]

theorem State.mrtestEvent_eq_act (s : State) (rd rn : Reg) (imm8 : BitVec 8) (job : Job s.cfg.W) :
    s.mrtestEvent rd job = s.act (engineAction (.mrtest rd rn imm8) job s.core.rngPending) := by
  unfold mrtestEvent engineAction
  split
  · rfl
  · cases hmr : job.mr with
    | none => rfl
    | some mr =>
      cases hn : job.latches.s1 with
      | none => rfl
      | some n =>
        cases hr : mrtestResult s.cfg.W rd mr.verdict <;> simp [hr, act, EngineAction.apply]

/-- While EXEC, `exec` is the action of the slot. -/
theorem exec_eq_act (i : Instr) {s : State} {job : Job s.cfg.W} (hexec : s.core.phase = .exec job) :
    exec i s = s.act (engineAction i job s.core.rngPending) := by
  cases i with
  | mrtest rd rn imm8 =>
    simp only [exec, execMrtest, hexec]
    exact s.mrtestEvent_eq_act rd rn imm8 job
  | _ =>
    simp only [exec, execNop, execMontmul, execTomont, execFrommont, execModmul, execModexp,
      execEgcd, execGcd, execModinv, execMrround]
    exact s.command_eq_act _ _ _ hexec

theorem exec_of_engineAction {i : Instr} {s : State} {job : Job s.cfg.W} {a : EngineAction s.cfg.W}
    (hexec : s.core.phase = .exec job) (ha : engineAction i job s.core.rngPending = some a) :
    exec i s = .next (s.setCore (a.apply s.core)) := by
  rw [exec_eq_act i hexec, ha]
  rfl

/-! ## MRTEST -/

/-- R192, R197: with no request outstanding, MRTEST's verdict decides its action. -/
theorem engineAction_mrtest {job : Job W} {n : BitVec W} {mr : MrState} (rd rn : Reg)
    (imm8 : BitVec 8) (hn : job.latches.s1 = some n) (hmr : job.mr = some mr) :
    engineAction (.mrtest rd rn imm8) job false =
      some ((mrtestResult W rd mr.verdict).elim (.request n) .complete) := by
  simp [engineAction, hn, hmr]

/-- Settles O25: a request outstanding, and each verdict without one. -/
theorem mrtestEngineEvents : Obligations.MrtestEngineEvents := by
  intro s job rd rn imm8 n mr hexec hn hmr
  have hevent : s.core.rngPending = false → exec (.mrtest rd rn imm8) s = .next (s.setCore
      (((mrtestResult s.cfg.W rd mr.verdict).elim (.request n) .complete :
        EngineAction s.cfg.W).apply s.core)) := fun hq =>
    exec_of_engineAction hexec (by rw [hq, engineAction_mrtest rd rn imm8 hn hmr])
  refine ⟨fun hq => exec_of_engineAction (a := .wait) hexec (by rw [hq]; rfl),
    fun hq hv => ?_, fun hq hv => ?_, fun hq hv => ?_, fun hq hv => ?_⟩
  all_goals
    rw [hevent hq, hv]
    rfl

/-! ## Register values -/

/-- Two commits of the same destinations: a register is written alike in both, or in neither. -/
theorem Aacore.commit_reg_agree (m m' : Aacore W) (ws : List (Reg × BitVec W)) (q : Reg) :
    (m'.commit ws).reg q = (m.commit ws).reg q ∨
    ((m'.commit ws).reg q = m'.reg q ∧ (m.commit ws).reg q = m.reg q) := by
  induction ws generalizing m m' with
  | nil => exact .inr ⟨rfl, rfl⟩
  | cons w ws ih =>
    obtain ⟨r, v⟩ := w
    rw [commit_cons, commit_cons]
    obtain hsame | ⟨hkept', hkept⟩ := ih (m.setReg r v) (m'.setReg r v)
    · exact .inl hsame
    · rw [hkept', hkept, reg_setReg, reg_setReg]
      by_cases hq : q = r <;> simp [hq]

/-- An action with other register values: the registers it writes get the same values, the others
keep theirs, and everything else is the same. -/
theorem EngineAction.apply_otherRegs (a : EngineAction W) (m : Aacore W)
    (other : Vector (BitVec W) nreg) : ∃ regs : Vector (BitVec W) nreg,
      a.apply { m with regs := other } = { a.apply m with regs := regs } ∧
      ∀ q : Reg, regs.get q = (a.apply m).reg q ∨
        (regs.get q = other.get q ∧ (a.apply m).reg q = m.reg q) := by
  cases a with
  | wait => exact ⟨other, rfl, fun _ => .inr ⟨rfl, rfl⟩⟩
  | request n => exact ⟨other, rfl, fun _ => .inr ⟨rfl, rfl⟩⟩
  | complete r =>
    cases r with
    | err c => exact ⟨other, rfl, fun _ => .inr ⟨rfl, rfl⟩⟩
    | ok ws =>
      refine ⟨(Aacore.commit { m with regs := other } ws).regs, ?_,
        Aacore.commit_reg_agree m { m with regs := other } ws⟩
      simp only [apply, Aacore.complete_ok]
      rw [Aacore.commit_eq, Aacore.commit_eq m]

/-- Settles O50: the action is that of the slot, with any register values. -/
theorem laterRegisterValuesDoNotMatter : Obligations.LaterRegisterValuesDoNotMatter := by
  intro i s t job other hexec hstep
  rw [exec_eq_act i hexec] at hstep
  cases ha : engineAction i job s.core.rngPending with
  | none => simp [ha, State.act] at hstep
  | some a =>
    rw [ha] at hstep
    obtain rfl := Host.Outcome.next.inj hstep
    obtain ⟨regs, happly, hregs⟩ := a.apply_otherRegs s.core other
    refine ⟨_, rfl, regs, ?_, hregs⟩
    calc exec i (s.setCore { s.core with regs := other })
        = .next (s.setCore (a.apply { s.core with regs := other })) :=
          exec_of_engineAction (s := s.setCore { s.core with regs := other }) (by exact hexec) ha
      _ = .next (s.setCore { a.apply s.core with regs := regs }) :=
          congrArg (fun m => Host.Outcome.next (s.setCore m)) happly

end Sys2Proof.Machine
end

section
/-! What a command leaves unchanged (R125, R220), and what changes the phase while it runs (R123). -/

namespace Sys2Proof.Machine

variable {W : Nat}

/-! ## The frame of a command -/

/-- An acceptance keeps every register, whether the command passes its check or not (R120). -/
theorem Aacore.accept_frame (m : Aacore W) (i : Instr) (check : Option ErrorCode)
    (mr : Option MrState) : (m.accept i check mr).ovr = m.ovr ∧
      (m.accept i check mr).irqen = m.irqen ∧ (m.accept i check mr).regs = m.regs := by
  cases check <;> exact ⟨rfl, rfl, rfl⟩

/-- An engine event changes no register but the destinations of its command, which a completion
writes (R124, R220). -/
theorem EngineEvent.frame {m m' : Aacore W} {job : Job W} {i : Instr}
    (he : EngineEvent m job i m') : m'.ovr = m.ovr ∧ m'.irqen = m.irqen ∧
      ∀ q, q ∉ dests i → m'.reg q = m.reg q := by
  cases he with
  | wait => exact ⟨rfl, rfl, fun _ _ => rfl⟩
  | request => exact ⟨rfl, rfl, fun _ _ => rfl⟩
  | complete r _ hr =>
    obtain ⟨ws, rfl, heq⟩ | ⟨c, rfl, heq⟩ := m.complete_cases r <;> rw [heq]
    · refine ⟨rfl, rfl, fun q hq => m.commit_reg_of_not_mem ws q fun w hw hwq => hq ?_⟩
      rw [← slotResult_dests hr, ← hwq]
      exact List.mem_map_of_mem hw
    · exact ⟨rfl, rfl, fun _ _ => rfl⟩

/-- Settles O49: an acceptance while IDLE, an engine event while EXEC. -/
theorem commandFrame : Obligations.CommandFrame := by
  intro i s t h
  cases hphase : s.core.phase with
  | idle =>
    rw [exec_idle i s hphase] at h
    obtain ⟨hovr, hirqen, hregs⟩ :=
      s.core.accept_frame i (acceptCheck i s.core) (acceptMr i s.core)
    have hecmd := s.core.accept_ecmdRecordsErrors i (acceptCheck i s.core) (acceptMr i s.core)
    refine ⟨_, (Host.Outcome.next.inj h).symm, hovr, hirqen, fun q _ => ?_, fun _ => hregs, ?_,
      nofun⟩
    · simp only [Aacore.reg, hregs]
    · exact hecmd.symm.imp And.left And.symm
  | exec job =>
    obtain ⟨m, rfl, he⟩ := exec_engineEvent hphase h
    obtain ⟨hovr, hirqen, hreg⟩ := he.frame
    obtain ⟨hecmd, hlast⟩ := he.lastcmd_ecmd
    exact ⟨m, rfl, hovr, hirqen, hreg, nofun, hecmd.symm.imp And.left And.symm, fun _ _ => hlast⟩

/-! ## The phase of a running command -/

/-- An engine event ends the command or keeps it in the slot (R124, R197). -/
theorem EngineEvent.phase {m m' : Aacore W} {job : Job W} {i : Instr}
    (he : EngineEvent m job i m') :
    m'.phase = m.phase ∨ (m.rngPending = false ∧ m'.phase = .idle) := by
  cases he with
  | wait => exact .inl rfl
  | request => exact .inl rfl
  | complete r hq =>
    obtain ⟨ws, -, heq⟩ | ⟨c, -, heq⟩ := m.complete_cases r <;> rw [heq]
    · exact .inr ⟨hq, rfl⟩
    · exact .inr ⟨hq, rfl⟩

/-- Every way in which a step from EXEC can change the phase (R123). -/
theorem CoreStep.phase_of_exec {K : Nat} {rst rst' : Bool} {e : Event W} {m m' : Aacore W}
    {resp : Option BusResponse} {job : Job W} (hstep : CoreStep K rst e m m' rst' resp)
    (hInv : m.Inv) (hexec : m.phase = .exec job) : m'.phase = m.phase ∨
      (e = .engine ∧ m.rngPending = false ∧ m'.phase = .idle) ∨
      (∃ v, e = .answer v ∧ m.rngPending = true ∧
        ∃ rd rn imm8, decode job.cur = .ok (.mrtest rd rn imm8)) ∨
      (∃ v, e = .host (.write 0x0010#16 v) ∧ (v[1] = true ∨ v[2] = true)) ∨
      e = .rst true ∨ rst = true := by
  cases hstep with
  | reset he => exact .inr (.inr (.inr (.inr (he.imp_right And.left))))
  | release | read | quiet | idleEngine | ignoredAnswer | busError | readOnly | overrun | window
  | status => exact .inl rfl
  | illegal a w why _ _ _ hidle => simp [hexec] at hidle
  | accept a w i _ _ _ hidle => simp [hexec] at hidle
  | engine job' i m' _ he _ _ hm =>
    exact hm.phase.imp_right fun ⟨hq, hidle⟩ => .inl ⟨he, hq, hidle⟩
  | answer job' mr n v _ he hq =>
    obtain ⟨i, hjob⟩ := hInv.slot job hexec
    obtain ⟨rd, rn, imm8, rfl, -⟩ := hjob.mrFits_of_mr_or_pending (.inr hq)
    exact .inr (.inr (.inl ⟨v, he, hq, rd, rn, imm8, hjob.cur_decode⟩))
  | ctrl a v _ he ha =>
    obtain rfl := eq_of_decodeAddr_ctrl ha
    obtain ⟨hv, -⟩ | ⟨-, -, heq⟩ | ⟨-, hv, -⟩ := m.writeCtrl_cases v
    · exact .inr (.inr (.inr (.inl ⟨v, he, .inr hv⟩)))
    · exact .inl (by rw [heq])
    · exact .inr (.inr (.inr (.inl ⟨v, he, .inl hv⟩)))

/-- Settles O44. -/
theorem whatChangesThePhase : Obligations.WhatChangesThePhase := by
  intro s t job hInv hexec h
  obtain ⟨m, rst, resp, rfl, hm⟩ := step_cases h
  exact ⟨m, rst, resp, rfl, (hm.phase_of_exec hInv hexec).resolve_left⟩

end Sys2Proof.Machine
end

section
/-! The laws of the Montgomery domain (R146): the radix and its inverse cancel modulo an odd n. -/

namespace Sys2Proof.Machine

variable {n : Nat}

theorem toMont_modEq (W a n : Nat) : toMont W a n ≡ a * 2 ^ W [MOD n] := Nat.mod_modEq _ n

theorem fromMont_modEq (W a n : Nat) : fromMont W a n ≡ a * radixInv W n [MOD n] :=
  Nat.mod_modEq _ n

/-- The radix in a Montgomery form cancels against its inverse. -/
theorem toMont_mul_radixInv_modEq (W a : Nat) (hn : n % 2 = 1) :
    toMont W a n * radixInv W n ≡ a [MOD n] := calc
  toMont W a n * radixInv W n ≡ a * 2 ^ W * radixInv W n [MOD n] :=
    (toMont_modEq W a n).mul_right _
  _ = a * (2 ^ W * radixInv W n) := mul_assoc ..
  _ ≡ a * 1 [MOD n] := (radix_mul_radixInv W hn).mul_left a
  _ = a := mul_one a

theorem fromMont_toMont (W a : Nat) (hn : n % 2 = 1) : fromMont W (toMont W a n) n = a % n :=
  toMont_mul_radixInv_modEq W a hn

theorem toMont_fromMont (W a : Nat) (hn : n % 2 = 1) : toMont W (fromMont W a n) n = a % n := calc
  fromMont W a n * 2 ^ W ≡ a * radixInv W n * 2 ^ W [MOD n] := (fromMont_modEq W a n).mul_right _
  _ = a * (2 ^ W * radixInv W n) := by ring
  _ ≡ a * 1 [MOD n] := (radix_mul_radixInv W hn).mul_left a
  _ = a := mul_one a

/-- A Montgomery product with one factor in Montgomery form is the ordinary product: the form's
radix is what the product divides out. -/
theorem mont_toMont_right (W x b : Nat) (hn : n % 2 = 1) :
    mont W x (toMont W b n) n = x * b % n := calc
  x * toMont W b n * radixInv W n % n = x * (toMont W b n * radixInv W n) % n := by rw [mul_assoc]
  _ = x * b % n := (toMont_mul_radixInv_modEq W b hn).mul_left x

theorem mont_toMont_toMont (W a b : Nat) (hn : n % 2 = 1) :
    mont W (toMont W a n) (toMont W b n) n = toMont W (a * b % n) n := by
  have hradix : toMont W a n * b ≡ a * b % n * 2 ^ W [MOD n] := calc
    toMont W a n * b ≡ a * 2 ^ W * b [MOD n] := (toMont_modEq W a n).mul_right b
    _ = a * b * 2 ^ W := mul_right_comm ..
    _ ≡ a * b % n * 2 ^ W [MOD n] := (Nat.mod_modEq _ n).symm.mul_right _
  exact (mont_toMont_right W _ b hn).trans hradix

/-- Settles O55. -/
theorem montgomeryLaws : Obligations.MontgomeryLaws := by
  intro W n a b hn ha _hb
  refine ⟨?_, mont_toMont_toMont W a b hn, mont_toMont_right W a b hn, ?_⟩
  · rw [mont_toMont_toMont W a b hn, fromMont_toMont W _ hn, Nat.mod_mod]
  · rw [toMont_fromMont W a hn, Nat.mod_eq_of_lt ha]

end Sys2Proof.Machine
end

section
/-! The coefficients of R170's recursion: they fit two's complement at every configured width, and
EGCD ends in OVERFLOW where one does not fit (R171, G3). -/

namespace Sys2Proof

theorem Config.two_le_W (c : Config) : 2 ≤ c.W := calc
  2 ≤ 32 * 1 := by decide
  _ ≤ 32 * c.K := Nat.mul_le_mul_left 32 c.one_le_K

end Sys2Proof

namespace Sys2Proof.Machine

/-- Settles O53. -/
theorem egcdIsTheRecursion : Obligations.EgcdIsTheRecursion :=
  ⟨egcd_zero_left, fun _ b ha => egcd_of_ne_zero ha b,
    fun a b => ⟨egcd_g_eq_gcd a b, egcd_bezout a b⟩⟩

/-! ## The bound of the coefficients -/

theorem egcd_of_dvd {a b : Nat} (ha : a ≠ 0) (hdvd : a ∣ b) : egcd a b = ⟨a, 1, 0⟩ := by
  simp [egcd_of_ne_zero ha, Nat.mod_eq_zero_of_dvd hdvd]

/-- Each coefficient is at most half of the other operand, but for the 1 of the last division. A
division with a remainder has a divisor of at least 2, so the 1 from a last division after it is
within half of that divisor. -/
theorem egcd_coefficients_le_half {a : Nat} (ha : a ≠ 0) (b : Nat) :
    2 * |(egcd a b).x| ≤ max 2 (b : Int) ∧ 2 * |(egcd a b).y| ≤ a := by
  induction a, b using Nat.gcd.induction with
  | H0 b => exact absurd rfl ha
  | H1 a b _ ih =>
    by_cases hmod : b % a = 0
    · simp [egcd_of_dvd ha (Nat.dvd_of_mod_eq_zero hmod)]
    · have htwo : 2 ≤ a := by
        have := Nat.mod_lt b (Nat.pos_of_ne_zero ha)
        omega
      obtain ⟨hx, hy⟩ := ih hmod
      rw [max_eq_right (by exact_mod_cast htwo)] at hx
      rw [egcd_of_ne_zero ha]
      refine ⟨le_max_of_le_right ?_, hx⟩
      calc 2 * |(egcd (b % a) a).y - ((b / a : Nat) : Int) * (egcd (b % a) a).x|
          ≤ 2 * |(egcd (b % a) a).y| + ((b / a : Nat) : Int) * (2 * |(egcd (b % a) a).x|) := by
            have hsub := abs_sub (egcd (b % a) a).y (((b / a : Nat) : Int) * (egcd (b % a) a).x)
            rw [abs_mul, Nat.abs_cast] at hsub
            linarith
        _ ≤ ((b % a : Nat) : Int) + ((b / a : Nat) : Int) * a := by gcongr
        _ = b := by exact_mod_cast Nat.mod_add_div' b a

theorem two_mul_abs_egcd_x_le (a b : Nat) : 2 * |(egcd a b).x| ≤ max 2 (b : Int) := by
  rcases eq_or_ne a 0 with rfl | ha
  · simp
  · exact (egcd_coefficients_le_half ha b).1

theorem two_mul_abs_egcd_y_le (a b : Nat) : 2 * |(egcd a b).y| ≤ max 2 (a : Int) := by
  rcases eq_or_ne a 0 with rfl | ha
  · simp
  · exact le_max_of_le_right (egcd_coefficients_le_half ha b).2

/-! ## Two's complement and the OVERFLOW check -/

variable {W : Nat}

/-- At a width of 1 this fails: `z = 1` is no 1-bit two's complement. -/
theorem fitsSigned_of_two_mul_abs_le (hW : 2 ≤ W) {z : Int} (v : BitVec W)
    (hz : 2 * |z| ≤ max 2 (v.toNat : Int)) : fitsSigned W z = true := by
  have hv : (v.toNat : Int) < 2 ^ W := by exact_mod_cast v.isLt
  have htwo : (2 : Int) < 2 ^ W := lt_self_pow₀ (by decide) hW
  have hhalf : (2 : Int) ^ W = 2 * 2 ^ (W - 1) := (mul_pow_sub_one (by omega) 2).symm
  have habs : |z| < 2 ^ (W - 1) := by
    have := hz.trans_lt (max_lt htwo hv)
    omega
  rw [fitsSigned_eq_true_iff]
  exact ⟨(abs_lt.1 habs).1.le, (abs_lt.1 habs).2⟩

theorem fitsSigned_egcd_x (hW : 2 ≤ W) (a b : BitVec W) :
    fitsSigned W (egcd a.toNat b.toNat).x = true :=
  fitsSigned_of_two_mul_abs_le hW b (two_mul_abs_egcd_x_le _ _)

theorem fitsSigned_egcd_y (hW : 2 ≤ W) (a b : BitVec W) :
    fitsSigned W (egcd a.toNat b.toNat).y = true :=
  fitsSigned_of_two_mul_abs_le hW a (two_mul_abs_egcd_y_le _ _)

theorem egcdResult_eq_overflow_iff (rg rx ry : Reg) (a b : BitVec W) :
    egcdResult rg rx ry a b = .err .overflow ↔
      ¬(fitsSigned W (egcd a.toNat b.toNat).x = true ∧
        fitsSigned W (egcd a.toNat b.toNat).y = true) := by
  simp only [egcdResult, ← Bool.and_eq_true]
  split <;> simp_all

/-- Settles O56: a coefficient is at most half of a W-bit operand, or is 1. -/
theorem egcdNeverOverflows : Obligations.EgcdNeverOverflows := by
  intro c a b
  have hx := fitsSigned_egcd_x c.two_le_W a b
  have hy := fitsSigned_egcd_y c.two_le_W a b
  obtain ⟨hxl, hxu⟩ := (fitsSigned_eq_true_iff _).1 hx
  obtain ⟨hyl, hyu⟩ := (fitsSigned_eq_true_iff _).1 hy
  exact ⟨hxl, hxu, hyl, hyu,
    fun rg rx ry h => (egcdResult_eq_overflow_iff rg rx ry a b).1 h ⟨hx, hy⟩⟩

/-- `failed` is R211's `raise` written out. -/
theorem Aacore.raise_eq_failed (m : Aacore W) (c : ErrorCode) : m.raise c = m.failed c := rfl

/-- Settles O21. -/
theorem egcdOverflowIsRaised : Obligations.EgcdOverflowIsRaised := by
  intro W m rg rx ry a b hunfit
  have hresult : egcdResult rg rx ry a b = .err .overflow := by
    rw [egcdResult_eq_overflow_iff, fitsSigned_eq_true_iff, fitsSigned_eq_true_iff]
    omega
  rw [hresult, Aacore.complete_error, Aacore.raise_eq_failed]

end Sys2Proof.Machine
end

section
/-! The Miller-Rabin round (R190): a prime passes it with every witness, so a verdict of 0 is certain
(R193), and a k-th squaring would change no verdict. -/

namespace Sys2Proof.Machine

/-- The comparison with n - 1 in R190, as a divisibility. -/
theorem mod_eq_sub_one_iff_dvd {n : Nat} (hn : 1 ≤ n) (x : Nat) : x % n = n - 1 ↔ n ∣ x + 1 := calc
  x % n = n - 1 ↔ x ≡ n - 1 [MOD n] := by rw [Nat.ModEq, Nat.mod_eq_of_lt (a := n - 1) (by omega)]
  _ ↔ x + 1 ≡ n - 1 + 1 [MOD n] := Nat.ModEq.rfl.add_iff_right.symm
  _ ↔ n ∣ x + 1 := by simp [Nat.ModEq, Nat.dvd_iff_mod_eq_zero, Nat.sub_add_cancel hn]

/-! ## A prime passes -/

/-- Modulo a prime, repeated squaring reaches 1 only from 1 itself or through -1, because
`x^(2^k) - 1` is `x - 1` times the factors `x^(2^j) + 1`. -/
theorem modEq_one_or_dvd_of_pow_two_pow {p x k : Nat} (hp : p.Prime) (h : x ^ 2 ^ k ≡ 1 [MOD p]) :
    x ≡ 1 [MOD p] ∨ ∃ j < k, p ∣ x ^ 2 ^ j + 1 := by
  have hprime : Prime (p : Int) := Nat.prime_iff_prime_int.1 hp
  have hdvd : (p : Int) ∣ (x : Int) ^ 2 ^ k - 1 ^ 2 ^ k := by simpa using h.symm.dvd
  rw [pow_two_pow_sub_pow_two_pow, hprime.dvd_mul, hprime.dvd_finsetProd_iff] at hdvd
  obtain ⟨j, hj, hfactor⟩ | hone := hdvd
  · exact .inr ⟨j, Finset.mem_range.1 hj, by rw [one_pow] at hfactor; exact_mod_cast hfactor⟩
  · exact .inl (Nat.modEq_of_dvd (by exact_mod_cast hone)).symm

theorem exists_two_pow_mul_odd_sub_one {n : Nat} (hn : n % 2 = 1) (hn3 : 3 ≤ n) :
    ∃ k d, n - 1 = 2 ^ k * d ∧ 1 ≤ k ∧ d % 2 = 1 := by
  obtain ⟨hsplit, hd⟩ := splitTwos_spec (m := n - 1) (by omega) (lt_two_pow_bitlen _)
  refine ⟨_, _, hsplit, Nat.one_le_iff_ne_zero.2 fun hk => ?_, hd⟩
  rw [hk, pow_zero, one_mul] at hsplit
  omega

/-- R193: an odd prime passes the round with every witness, by Fermat's little theorem. -/
theorem mrRound_of_prime {n a : Nat} (hn : n.Prime) (hn2 : n ≠ 2) (ha : 1 ≤ a) (han : a < n) :
    mrRound n a = true := by
  have hodd : n % 2 = 1 := hn.eq_two_or_odd.resolve_left hn2
  have hn3 : 3 ≤ n := by have := hn.two_le; omega
  obtain ⟨k, d, hsplit, hk, hd⟩ := exists_two_pow_mul_odd_sub_one hodd hn3
  have hfermat : (a ^ d) ^ 2 ^ k ≡ 1 [MOD n] := by
    rw [← pow_mul, mul_comm, ← hsplit]
    exact Nat.ModEq.pow_card_sub_one_eq_one hn (Nat.coprime_of_lt_prime (by omega) han hn).symm
  rw [mrRound_eq_true_iff hn3 hsplit hk hd]
  refine (modEq_one_or_dvd_of_pow_two_pow hn hfermat).imp (fun hone => ?_) fun ⟨j, hj, hdvd⟩ =>
    ⟨j, hj, ?_⟩
  · rw [hone, Nat.mod_eq_of_lt (by omega)]
  · rwa [mod_eq_sub_one_iff_dvd (by omega), mul_comm, pow_mul]

/-! ## A round of MRTEST (R192) -/

/-- R192: a witness out of `[1, n)` is the RNG error. -/
theorem MrState.evalRound_outOfRange (mr : MrState) {n v : Nat} (hv : ¬(1 ≤ v ∧ v < n)) :
    mr.evalRound n v = { mr with verdict := .rngError } := if_pos hv

theorem MrState.evalRound_failed (mr : MrState) {n v : Nat} (hv : 1 ≤ v) (hvn : v < n)
    (hround : mrRound n v = false) : mr.evalRound n v = { mr with verdict := .composite } := by
  rw [evalRound, if_neg (not_not.2 ⟨hv, hvn⟩), if_pos hround]

/-- R192: a passed round counts, and the last one decides. -/
theorem MrState.evalRound_passed {mr : MrState} {n v : Nat} (hmr : mr.verdict = .undecided)
    (hv : 1 ≤ v) (hvn : v < n) (hround : mrRound n v = true) :
    mr.evalRound n v = { mr with
      roundIdx := mr.roundIdx + 1
      verdict := if mr.roundIdx + 1 = mr.rounds then .probablePrime else .undecided } := by
  rw [evalRound, if_neg (not_not.2 ⟨hv, hvn⟩), if_neg (by simp [hround]), hmr]

/-- An undecided MRTEST reaches a verdict of 0 only by a witness in range that fails its round. -/
theorem MrState.mrRound_of_evalRound_composite {mr : MrState} {n v : Nat}
    (hmr : mr.verdict = .undecided) (h : (mr.evalRound n v).verdict = .composite) :
    1 ≤ v ∧ v < n ∧ mrRound n v = false := by
  by_cases hv : 1 ≤ v ∧ v < n
  · refine ⟨hv.1, hv.2, Bool.eq_false_iff.2 fun hround => ?_⟩
    rw [evalRound_passed hmr hv.1 hv.2 hround] at h
    split at h <;> cases h
  · rw [evalRound_outOfRange mr hv] at h
    cases h

/-- R192: MRTEST starts with a verdict of 0 for 0, 1 and the even numbers above 2. -/
theorem not_prime_of_mrtestStart_composite {n : Nat} {imm8 : BitVec 8}
    (h : (mrtestStart n imm8).verdict = .composite) : ¬n.Prime := by
  intro hn
  obtain ⟨-, htwo, -, hodd⟩ := mrtestStart_verdict n imm8
  obtain hn2 | hn2 := hn.eq_two_or_odd
  · simp [htwo hn2] at h
  · have : 2 < n := by have := hn.two_le; omega
    simp [hodd this hn2] at h

/-- Settles O57: every verdict of 0 contradicts what a prime does. -/
theorem compositeVerdictIsCertain : Obligations.CompositeVerdictIsCertain := by
  refine ⟨fun n a => mrRound_of_prime, fun n imm8 => not_prime_of_mrtestStart_composite,
    fun mr n v _ hn3 hmr h hn => ?_⟩
  obtain ⟨hv, hvn, hfail⟩ := MrState.mrRound_of_evalRound_composite hmr h
  simp [mrRound_of_prime hn (by omega) hv hvn] at hfail

/-! ## The k-th squaring -/

/-- R190: no 2^k-th power is -1 modulo n, where 2^k is the power of two in n - 1. Every prime factor
of n would be 1 modulo 2^(k+1), and so would n. -/
theorem not_dvd_pow_two_pow_add_one {n k d : Nat} (hn : n % 2 = 1) (hsplit : n - 1 = 2 ^ k * d)
    (hd : d % 2 = 1) (x : Nat) : ¬n ∣ x ^ 2 ^ k + 1 := by
  intro hdvd
  have hfactor : ∀ p ∈ n.primeFactorsList, p ≡ 1 [MOD 2 ^ (k + 1)] := by
    intro p hp
    have hpn : p ∣ n := Nat.dvd_of_mem_primeFactorsList hp
    have hp2 : p ≠ 2 := by rintro rfl; omega
    obtain ⟨c, rfl⟩ := Nat.pow_pow_add_primeFactors_one_lt (Nat.prime_of_mem_primeFactorsList hp)
      hp2 (hpn.trans hdvd)
    simp [Nat.ModEq]
  have hone : n ≡ 1 [MOD 2 ^ (k + 1)] := by
    rw [← Nat.prod_primeFactorsList (show n ≠ 0 by omega)]
    exact Nat.ModEq.listProd_one hfactor
  have htwo : 2 ^ k * 2 ∣ 2 ^ k * d := by
    rw [← pow_succ, ← hsplit]
    exact (Nat.modEq_iff_dvd' (by omega)).1 hone.symm
  have := Nat.dvd_of_mul_dvd_mul_left (by positivity) htwo
  omega

/-- Settles O58: the k-th squaring alone would have to give n - 1. -/
theorem extraSquaringChangesNothing : Obligations.ExtraSquaringChangesNothing := by
  intro n a k d hn hn3 _ _ hsplit hk hd _ _
  have hlast := not_dvd_pow_two_pow_add_one hn hsplit hd (powMod a d n)
  rw [← mod_eq_sub_one_iff_dvd (by omega)] at hlast
  obtain ⟨k, rfl⟩ : ∃ k', k = k' + 1 := ⟨k - 1, by omega⟩
  rw [Bool.eq_iff_iff, squareLoop_eq_true_iff hn3, squareLoop_eq_true_iff hn3,
    Nat.exists_lt_succ_right, Nat.add_sub_cancel, or_iff_left hlast]

end Sys2Proof.Machine
end

section
/-! The randomness port's steps: the answer to a request and the answer to none (R192, R196), and the
one step that raises a request (R197, R198). -/

namespace Sys2Proof.Machine

variable {W : Nat}

/-! ## Answers -/

/-- R196: the answer ends the request and evaluates the round. -/
theorem State.answer_of_pending {s : State} {job : Job s.cfg.W} {n : BitVec s.cfg.W} {mr : MrState}
    (v : BitVec s.cfg.W) (hq : s.core.rngPending = true) (hexec : s.core.phase = .exec job)
    (hn : job.latches.s1 = some n) (hmr : job.mr = some mr) :
    s.answer v = .next (s.setCore { s.core.withdraw with
      phase := .exec { job with mr := some (mr.evalRound n.toNat v.toNat) } }) := by
  simp [answer, hq, hexec, hn, hmr]

theorem State.answer_of_not_pending {s : State} (v : BitVec s.cfg.W)
    (hq : s.core.rngPending = false) : s.answer v = .next s := by
  simp [answer, hq]

/-- Settles O26. -/
theorem answerEvaluatesTheRound : Obligations.AnswerEvaluatesTheRound := by
  intro s job n v mr hr he hq hexec hn hmr hv
  refine ⟨mr.evalRound n.toNat v.toNat, ?_, mr.evalRound_outOfRange, mr.evalRound_failed,
    MrState.evalRound_passed hv⟩
  rw [step_answer hr he]
  exact State.answer_of_pending (s := s.pop) v hq hexec hn hmr

/-- Settles O27. -/
theorem unrequestedAnswerIsIgnored : Obligations.UnrequestedAnswerIsIgnored := by
  intro s v hr he hq
  rw [step_answer hr he]
  exact State.answer_of_not_pending (s := s.pop) v hq

/-! ## Requests -/

/-- An acceptance requests nothing: MRTEST's first request is an event of its own (R197). -/
theorem Aacore.accept_not_pending {m : Aacore W} (i : Instr) (check : Option ErrorCode)
    (mr : Option MrState) (hq : m.rngPending = false) :
    (m.accept i check mr).rngPending = false := by
  cases check with
  | none => exact hq
  | some c => rfl

theorem Aacore.writeCtrl_not_pending {m : Aacore W} (v : Word) (hq : m.rngPending = false) :
    (m.writeCtrl v).rngPending = false := by
  obtain ⟨-, heq⟩ | ⟨-, -, heq⟩ | ⟨-, -, -, heq⟩ := m.writeCtrl_cases v <;> rw [heq]
  · rfl
  · exact hq
  · rfl

theorem Aacore.complete_not_pending {m : Aacore W} (r : CommandResult W)
    (hq : m.rngPending = false) : (m.complete r).rngPending = false := by
  obtain ⟨ws, -, heq⟩ | ⟨c, -, heq⟩ := m.complete_cases r <;> rw [heq]
  · exact hq
  · rfl

/-- R198: only an engine event of the command in the slot raises a request. -/
theorem CoreStep.engineEvent_of_newRequest {K : Nat} {rst rst' : Bool} {e : Event W}
    {m m' : Aacore W} {resp : Option BusResponse} (hstep : CoreStep K rst e m m' rst' resp)
    (hq : m.rngPending = false) (hq' : m'.rngPending = true) :
    e = .engine ∧ rst' = rst ∧ resp = none ∧
      ∃ job i, m.phase = .exec job ∧ decode job.cur = .ok i ∧ EngineEvent m job i m' := by
  cases hstep with
  | engine job i _ hr he hexec hdec hm => exact ⟨he, hr.symm, rfl, job, i, hexec, hdec, hm⟩
  | release | read | quiet | idleEngine | ignoredAnswer | busError | readOnly | overrun | window
  | status => cases hq.symm.trans hq'
  | reset | illegal | answer => cases hq'
  | accept => cases (Aacore.accept_not_pending _ _ _ hq).symm.trans hq'
  | ctrl => cases (Aacore.writeCtrl_not_pending _ hq).symm.trans hq'

/-- R197: an engine event that raises a request is MRTEST's, while the verdict is undecided. -/
theorem EngineEvent.request_of_newRequest {m m' : Aacore W} {job : Job W} {i : Instr}
    (he : EngineEvent m job i m') (hq : m.rngPending = false) (hq' : m'.rngPending = true) :
    ∃ rd rn imm8 mr n, i = .mrtest rd rn imm8 ∧ job.mr = some mr ∧ mr.verdict = .undecided ∧
      job.latches.s1 = some n ∧ m' = m.request n := by
  cases he with
  | wait => cases hq.symm.trans hq'
  | complete r => cases (Aacore.complete_not_pending r hq).symm.trans hq'
  | request rd rn imm8 mr n hi _ hmr hv hn => exact ⟨rd, rn, imm8, mr, n, hi, hmr, hv, hn, rfl⟩

/-- Settles O28, by the list of all changes a step can make. -/
theorem onlyMrtestRequestsWitnesses : Obligations.OnlyMrtestRequestsWitnesses := by
  intro s t h hq hq'
  obtain ⟨m, rst, resp, rfl, hm⟩ := step_cases h
  obtain ⟨he, rfl, rfl, job, i, hexec, hdec, hevent⟩ := hm.engineEvent_of_newRequest hq hq'
  obtain ⟨rd, rn, imm8, mr, n, rfl, hmr, hv, hn, rfl⟩ := hevent.request_of_newRequest hq hq'
  exact ⟨job, rd, rn, imm8, mr, n, he, hexec, hdec, hmr, hv, hn, rfl⟩

end Sys2Proof.Machine
end

section
/-! The interrupt output (R216): its equation, and every event under which it falls. -/

namespace Sys2Proof.Machine

variable {W : Nat}

theorem State.outputs_irq (s : State) : s.outputs.irq = (!s.rst && s.core.irq) := rfl

theorem State.outputs_irq_eq_true {s : State} :
    s.outputs.irq = true ↔ s.rst = false ∧ s.core.irq = true := by
  simp [outputs_irq]

theorem Aacore.irqen_of_irq {m : Aacore W} (h : m.irq = true) : m.irqen = true :=
  (Bool.and_eq_true_iff.1 h).1

/-! ## What each operation does to `irq` -/

/-- An error interrupts whenever the interrupt is enabled. -/
@[simp] theorem Aacore.raise_irq (m : Aacore W) (c : ErrorCode) : (m.raise c).irq = m.irqen := by
  simp [irq]

/-- A completion sets DONE or ERR, and so interrupts whenever the interrupt is enabled. -/
theorem Aacore.complete_irq (m : Aacore W) (r : CommandResult W) :
    (m.complete r).irq = m.irqen := by
  obtain ⟨ws, -, heq⟩ | ⟨c, -, heq⟩ := m.complete_cases r <;> rw [heq]
  · simp [irq]
  · exact m.raise_irq c

/-- An acceptance lets `irq` fall only by putting the command in execution: a failed check sets ERR
in the same event. -/
theorem Aacore.accept_busy_of_irq_falls {m : Aacore W} {i : Instr} {check : Option ErrorCode}
    {mr : Option MrState} (hirq : m.irq = true) (hfall : (m.accept i check mr).irq = false) :
    (m.accept i check mr).busy = true := by
  cases check with
  | none => rfl
  | some c =>
    have hkept : (m.accept i (some c) mr).irq = m.irqen := raise_irq _ c
    simp [hkept, irqen_of_irq hirq] at hfall

/-- A STATUS write lets `irq` fall only by clearing DONE or ERR (R35). -/
theorem Aacore.writeStatus_irq_falls {m : Aacore W} {v : Word} (hirq : m.irq = true)
    (hfall : (m.writeStatus v).irq = false) : v[1] = true ∨ v[2] = true := by
  by_contra hkeep
  obtain ⟨h1, h2⟩ : v[1] = false ∧ v[2] = false := by simpa using hkeep
  have hkept : (m.writeStatus v).irq = m.irq := by simp [irq, h1, h2]
  simp [hkept, hirq] at hfall

/-- A CTRL write lets `irq` fall only by a soft reset or by clearing IRQEN: an abort sets ERR
(R37). -/
theorem Aacore.writeCtrl_irq_falls {m : Aacore W} {v : Word} (hirq : m.irq = true)
    (hfall : (m.writeCtrl v).irq = false) : v[2] = true ∨ v[0] = false := by
  obtain ⟨hv, -⟩ | ⟨-, -, heq⟩ | ⟨-, -, -, heq⟩ := m.writeCtrl_cases v
  · exact .inl hv
  · obtain ⟨-, hflags⟩ := Bool.and_eq_true_iff.1 hirq
    exact .inr (by simpa [heq, irq, hflags] using hfall)
  · exact .inr (by simpa [heq] using hfall)

theorem EngineEvent.irq_stays {m m' : Aacore W} {job : Job W} {i : Instr}
    (he : EngineEvent m job i m') (hirq : m.irq = true) : m'.irq = true := by
  cases he with
  | wait | request => exact hirq
  | complete r => rw [m.complete_irq, Aacore.irqen_of_irq hirq]

/-! ## Every step -/

/-- Everything that lets the `irq` pin fall, outside reset. -/
theorem CoreStep.irq_falls {K : Nat} {rst' : Bool} {e : Event W} {m m' : Aacore W}
    {resp : Option BusResponse} (hstep : CoreStep K false e m m' rst' resp) (hirq : m.irq = true)
    (hfall : (!rst' && m'.irq) = false) :
    (∃ v, e = .host (.write 0x000C#16 v) ∧ (v[1] = true ∨ v[2] = true)) ∨
    (∃ w, e = .host (.write 0x0008#16 w) ∧ m'.busy = true) ∨
    (∃ v, e = .host (.write 0x0010#16 v) ∧ (v[2] = true ∨ v[0] = false)) ∨ e = .rst true := by
  cases hstep with
  | reset he => exact .inr (.inr (.inr (he.resolve_right (by simp))))
  | release | read | quiet | idleEngine | ignoredAnswer | busError | readOnly | overrun | window
  | answer => cases hirq.symm.trans hfall
  | illegal =>
    rw [Aacore.raise_irq, Aacore.latchCommand_irqen, Aacore.irqen_of_irq hirq] at hfall
    cases hfall
  | engine job i m' _ _ _ _ hm => cases (hm.irq_stays hirq).symm.trans hfall
  | status a v _ he ha =>
    obtain rfl := eq_of_decodeAddr_status ha
    exact .inl ⟨v, he, Aacore.writeStatus_irq_falls hirq hfall⟩
  | accept a w i _ he ha =>
    obtain rfl := eq_of_decodeAddr_cmd ha
    exact .inr (.inl ⟨w, he, Aacore.accept_busy_of_irq_falls hirq hfall⟩)
  | ctrl a v _ he ha =>
    obtain rfl := eq_of_decodeAddr_ctrl ha
    exact .inr (.inr (.inl ⟨v, he, Aacore.writeCtrl_irq_falls hirq hfall⟩))

/-- Settles O40. -/
theorem interruptOutput : Obligations.InterruptOutput := by
  refine ⟨fun s hr => ?_, fun s t h hirq hfall => ?_⟩
  · rw [State.outputs_irq, hr]
    rfl
  · obtain ⟨hr, hirq⟩ := State.outputs_irq_eq_true.1 hirq
    obtain ⟨m, rst, resp, rfl, hm⟩ := step_cases h
    rw [hr] at hm
    exact hm.irq_falls hirq hfall

end Sys2Proof.Machine
end

section
/-! What changes the register file (R220), and what sets and clears OVR (R218). -/

namespace Sys2Proof.Machine

variable {W : Nat}

/-! ## Registers -/

/-- An engine event that changes a register is a completion with DONE, and the register is one of
its destinations (R124). -/
theorem EngineEvent.of_reg_ne {m m' : Aacore W} {job : Job W} {i : Instr} {r : Reg}
    (he : EngineEvent m job i m') (hne : m'.reg r ≠ m.reg r) :
    r ∈ dests i ∧ m'.phase = .idle ∧ m'.done = true ∧ m'.err = m.err := by
  obtain ⟨-, -, hframe⟩ := he.frame
  refine ⟨not_imp_comm.1 (hframe r) hne, ?_⟩
  cases he with
  | wait | request => exact absurd rfl hne
  | complete res =>
    obtain ⟨ws, -, heq⟩ | ⟨c, -, heq⟩ := m.complete_cases res <;> rw [heq] at hne ⊢
    · exact ⟨rfl, rfl, rfl⟩
    · exact absurd rfl hne

/-- Every way in which a step can change a register (R220). -/
theorem CoreStep.of_reg_ne {K : Nat} {rst rst' : Bool} {e : Event W} {m m' : Aacore W}
    {resp : Option BusResponse} {r : Reg} (hstep : CoreStep K rst e m m' rst' resp) (hInv : m.Inv)
    (hne : m'.reg r ≠ m.reg r) :
    (m.busy = false ∧ m'.busy = false ∧ ∃ a v, e = .host (.write a v) ∧
      0x1000 ≤ a.toNat ∧ a.toNat < 0x2000 ∧ a.toNat / 0x100 % 0x10 = r.val) ∨
    (∃ job i, m.phase = .exec job ∧ decode job.cur = .ok i ∧ e = .engine ∧ r ∈ dests i ∧
      m'.busy = false ∧ m'.done = true ∧ m'.err = false) ∨
    IsReset rst e := by
  cases hstep with
  | reset he => exact .inr (.inr (.inr (he.imp_right And.left)))
  | release | read | quiet | idleEngine | ignoredAnswer | busError | readOnly | overrun | status
  | illegal | answer => exact absurd rfl hne
  | accept a w i =>
    obtain ⟨-, -, hregs⟩ := m.accept_frame i (acceptCheck i m) (acceptMr i m)
    exact absurd (by simp only [Aacore.reg, hregs]) hne
  | window a v i j _ he ha hidle =>
    have hi : r = i := by
      by_contra hri
      exact hne (by rw [m.reg_setReg, if_neg hri])
    obtain ⟨hlo, hhi, hreg, -⟩ := toNat_of_decodeAddr_window ha
    exact .inl ⟨m.busy_idle hidle, Aacore.busy_idle _ hidle, a, v, he, hlo, hhi, hi ▸ hreg⟩
  | ctrl a v _ he ha =>
    obtain rfl := eq_of_decodeAddr_ctrl ha
    obtain ⟨hv, -⟩ | ⟨-, -, heq⟩ | ⟨-, -, -, heq⟩ := m.writeCtrl_cases v
    · exact .inr (.inr (.inl ⟨v, he, hv⟩))
    · exact absurd (by rw [heq]; rfl) hne
    · exact absurd (by rw [heq]; rfl) hne
  | engine job i m' _ he hexec hdec hm =>
    obtain ⟨hr, hidle, hdone, herr⟩ := hm.of_reg_ne hne
    obtain ⟨-, herr', -⟩ := hInv.flags_of_exec hexec
    exact .inr (.inl ⟨job, i, hexec, hdec, he, hr, m'.busy_idle hidle, hdone, herr.trans herr'⟩)

/-- Settles O45. -/
theorem whatChangesTheRegisters : Obligations.WhatChangesTheRegisters := by
  intro s t hInv h r hne
  obtain ⟨m, rst, resp, rfl, hm⟩ := step_cases h
  exact hm.of_reg_ne hInv (ne_of_apply_ne BitVec.toNat hne)

/-! ## OVR -/

/-- The addresses whose writes are dropped while BUSY: CMD and the register file (R63, R121). -/
theorem addr_of_decodeAddr_dropped {K : Nat} {a : Addr} {t : Target}
    (ha : decodeAddr K a = some t) (ht : t = .cmd ∨ ∃ i j, t = .window i j) :
    a = 0x0008#16 ∨ (0x1000 ≤ a.toNat ∧ a.toNat < 0x2000) := by
  obtain rfl | ⟨i, j, rfl⟩ := ht
  · exact .inl (eq_of_decodeAddr_cmd ha)
  · obtain ⟨hlo, hhi, -⟩ := toNat_of_decodeAddr_window ha
    exact .inr ⟨hlo, hhi⟩

/-- A step keeps OVR, or it drops a write and sets it, or it clears it by W1C or a reset (R218). -/
theorem CoreStep.ovr_cases {K : Nat} {rst rst' : Bool} {e : Event W} {m m' : Aacore W}
    {resp : Option BusResponse} (hstep : CoreStep K rst e m m' rst' resp) :
    m'.ovr = m.ovr ∨
    ((∃ a v, e = .host (.write a v) ∧ (a = 0x0008#16 ∨ (0x1000 ≤ a.toNat ∧ a.toNat < 0x2000))) ∧
      m.busy = true ∧ m' = m.overrun ∧ rst' = rst ∧ resp = some (.write false)) ∨
    (m'.ovr = false ∧
      ((∃ v, e = .host (.write 0x000C#16 v) ∧ v[3] = true) ∨ IsReset rst e)) := by
  cases hstep with
  | reset he => exact .inr (.inr ⟨rfl, .inr (.inr (he.imp_right And.left))⟩)
  | release | read | quiet | idleEngine | ignoredAnswer | busError | readOnly | window | illegal
  | answer => exact .inl rfl
  | overrun a v t job hr he ha ht hexec =>
    exact .inr (.inl ⟨⟨a, v, he, addr_of_decodeAddr_dropped ha ht⟩, m.busy_exec hexec, rfl,
      hr.symm, rfl⟩)
  | status a v _ he ha =>
    obtain rfl := eq_of_decodeAddr_status ha
    cases hv : v[3] with
    | false => exact .inl (by simp [hv])
    | true => exact .inr (.inr ⟨by simp [hv], .inl ⟨v, he, hv⟩⟩)
  | ctrl a v _ he ha =>
    obtain rfl := eq_of_decodeAddr_ctrl ha
    obtain ⟨hv, heq⟩ | ⟨-, -, heq⟩ | ⟨-, -, -, heq⟩ := m.writeCtrl_cases v <;> rw [heq]
    · exact .inr (.inr ⟨rfl, .inr (.inl ⟨v, he, hv⟩)⟩)
    · exact .inl rfl
    · exact .inl rfl
  | accept => exact .inl (m.accept_frame _ _ _).1
  | engine job i m' _ _ _ _ hm => exact .inl hm.frame.1

/-- Settles O48: by what the step does to OVR. -/
theorem overrunIsSticky : Obligations.OverrunIsSticky := by
  intro s t h
  obtain ⟨m, rst, resp, rfl, hm⟩ := step_cases h
  obtain hkept | ⟨hwrite, hbusy, rfl, rfl, rfl⟩ | ⟨hcleared, hcause⟩ := hm.ovr_cases
  · exact ⟨fun hclear hset => (nomatch hclear.symm.trans (hkept.symm.trans hset)),
      fun hset hclear => (nomatch hset.symm.trans (hkept.symm.trans hclear))⟩
  · exact ⟨fun _ _ => ⟨hwrite, hbusy, rfl, rfl⟩, nofun⟩
  · exact ⟨fun _ hset => (nomatch hset.symm.trans hcleared), fun _ _ => hcause⟩

end Sys2Proof.Machine
end

section
/-! The commands that fail their check at acceptance (R120, R213, R214). -/

namespace Sys2Proof.Machine

/-- A command that fails its check ends at acceptance, in the error of the first failed check. -/
theorem exec_rejects {i : Instr} {s : State} {c : ErrorCode} (hidle : s.core.phase = .idle)
    (hcheck : acceptCheck i s.core = some c) :
    exec i s = .next (s.setCore (s.core.endedInError (encode i) c)) := by
  rw [exec_idle i s hidle, hcheck]
  rfl

variable {a b n : Nat}

theorem montmulCheck_eq_range (hn : n % 2 = 1) (hab : n ≤ a ∨ n ≤ b) :
    montmulCheck a b n = some .range := by
  rw [montmulCheck, if_neg (by omega), if_pos hab]

theorem montFormCheck_eq_range (hn : n % 2 = 1) (ha : n ≤ a) :
    montFormCheck a n = some .range := by
  rw [montFormCheck, if_neg (by omega), if_pos ha]

theorem mrroundCheck_eq_range (hodd : n % 2 = 1) (hn : 3 ≤ n) (ha : a = 0 ∨ n ≤ a) :
    mrroundCheck n a = some .range := by
  rw [mrroundCheck, if_neg (by omega), if_pos ha]

/-- Settles O13: DOMAIN and ILLEGAL are the first check of their command, and RANGE is the second,
reached when the modulus or the candidate has passed. -/
theorem acceptanceErrorsInOrder : Obligations.AcceptanceErrorsInOrder :=
  fun _s hidle _rd _ra _rb _rn =>
    ⟨fun hn => ⟨exec_rejects hidle (if_pos hn), exec_rejects hidle (if_pos hn),
        exec_rejects hidle (if_pos hn)⟩,
      fun hn hab => exec_rejects hidle (montmulCheck_eq_range hn hab),
      fun hn ha => ⟨exec_rejects hidle (montFormCheck_eq_range hn ha),
        exec_rejects hidle (montFormCheck_eq_range hn ha)⟩,
      fun hn => ⟨exec_rejects hidle (if_pos hn), exec_rejects hidle (if_pos hn)⟩,
      fun hn => exec_rejects hidle (if_pos hn),
      fun hn => exec_rejects hidle (if_pos hn),
      fun hodd hn ha => exec_rejects hidle (mrroundCheck_eq_range hodd hn ha),
      fun _rg _rx _ry heq => exec_rejects hidle (if_pos heq)⟩

end Sys2Proof.Machine
end

section
/-! Hardware reset (R64, R240): the reset cycle, the release of `rst`, and the pins while `rst` is
1. -/

namespace Sys2Proof.Machine

/-- R240: with `rst` sampled at 1, or held there, every event but its release is a reset cycle. -/
theorem step_resetCycle {s : State}
    (h : s.nextEvent = .rst true ∨ (s.rst = true ∧ s.nextEvent ≠ .rst false)) :
    step s = .next s.pop.resetCycle := by
  generalize he : s.nextEvent = e at h
  rw [step_of_event he]
  obtain rfl | ⟨hr, hne⟩ := h
  · rfl
  · cases e with
    | rst level =>
      cases level with
      | false => exact absurd rfl hne
      | true => rfl
    | host | answer | engine | quiet => exact if_pos hr

theorem step_release {s : State} (h : s.nextEvent = .rst false) :
    step s = .next { s.pop with rst := false } := step_of_event h

/-- R64, R240: while `rst` is 1 the bus is not ready and the other outputs of R60 are 0. -/
theorem State.outputs_of_rst {s : State} (hr : s.rst = true) :
    s.outputs.busReady = false ∧ s.outputs.irq = false ∧ s.outputs.rngReq = false ∧
      s.outputs.rngLo.toNat = 0 ∧ s.outputs.rngHi.toNat = 0 := by
  simp [outputs, hr]

/-- Settles O39: every event under `rst` is one and the same cycle, and its release keeps AACORE. -/
theorem hardwareReset : Obligations.HardwareReset := fun _s =>
  ⟨fun h => ⟨_, step_resetCycle h, rfl, State.outputs_of_rst rfl⟩,
    fun h => ⟨_, step_release h, rfl, rfl⟩⟩

end Sys2Proof.Machine
end

section
/-! The progress of a command in execution (R123, R192, R251): an engine event completes it or
raises MRTEST's request, and an answer decides MRTEST or passes one of its rounds. -/

namespace Sys2Proof.Machine

variable {W : Nat}

/-! ## Engine events -/

@[simp] theorem Aacore.complete_phase (m : Aacore W) (r : CommandResult W) :
    (m.complete r).phase = .idle := by
  cases r <;> rfl

/-- With no request outstanding, the command ends or it is an MRTEST that makes a request. -/
theorem EngineEvent.ends_or_requests {m m' : Aacore W} {job : Job W} {i : Instr}
    (he : EngineEvent m job i m') (hq : m.rngPending = false) : m'.phase = .idle ∨
      (m'.rngPending = true ∧ m'.phase = m.phase ∧ ∃ rd rn imm8, i = .mrtest rd rn imm8) := by
  cases he with
  | wait hwait => cases hq.symm.trans hwait
  | complete r => exact .inl (m.complete_phase r)
  | request rd rn imm8 mr n hi => exact .inr ⟨rfl, rfl, rd, rn, imm8, hi⟩

/-- In a safe state with a command in execution, the engine takes an event of that command. -/
theorem State.engineEvent_of_inv {s : State} {job : Job s.cfg.W} (hInv : s.Inv)
    (hexec : s.core.phase = .exec job) : ∃ i m, decode job.cur = .ok i ∧
      s.engineEvent = .next (s.setCore m) ∧ EngineEvent s.core job i m := by
  obtain ⟨i, hjob⟩ := hInv.slot job hexec
  obtain ⟨t, ht⟩ := exec_of_jobFits hjob hexec
  obtain ⟨m, rfl, hm⟩ := exec_engineEvent hexec ht
  exact ⟨i, m, hjob.cur_decode, (engineEvent_of_decode hexec hjob.cur_decode).trans ht, hm⟩

/-! ## Answers -/

/-- R192: a round decides, or it passes and another one is still to come. -/
theorem MrState.evalRound_decides_or_passes {mr : MrState} {n : Nat} {imm8 : BitVec 8} (v : Nat)
    (hfits : mr.Fits n imm8) (hmr : mr.verdict = .undecided) :
    (mr.evalRound n v).verdict ≠ .undecided ∨
      ((mr.evalRound n v).roundIdx = mr.roundIdx + 1 ∧
        (mr.evalRound n v).roundIdx < (mr.evalRound n v).rounds) := by
  by_cases hv : 1 ≤ v ∧ v < n
  · cases hround : mrRound n v with
    | false => simp [evalRound_failed mr hv.1 hv.2 hround]
    | true =>
      refine or_iff_not_imp_left.2 fun hundecided => ?_
      obtain ⟨-, -, hlt⟩ := (evalRound_fits v hfits hmr).undecided (not_not.1 hundecided)
      exact ⟨by rw [evalRound_passed hmr hv.1 hv.2 hround], hlt⟩
  · simp [evalRound_outOfRange mr hv]

/-- An outstanding request of a safe state is that of an undecided MRTEST, whose candidate and round
state are in the slot. -/
theorem Aacore.Inv.mr_of_pending {m : Aacore W} {job : Job W} (hInv : m.Inv)
    (hexec : m.phase = .exec job) (hq : m.rngPending = true) : ∃ n mr imm8,
      job.latches.s1 = some n ∧ job.mr = some mr ∧ mr.Fits n.toNat imm8 ∧
        mr.verdict = .undecided := by
  obtain ⟨i, hjob⟩ := hInv.slot job hexec
  obtain ⟨-, -, imm8, -, n, mr, hn, hmr, hfits, hreq⟩ := hjob.mrFits_of_mr_or_pending (.inr hq)
  exact ⟨n, mr, imm8, hn, hmr, hfits, (hreq hq).1⟩

/-! ## Progress -/

/-- Settles O51: the engine event by what an event of a safe slot can do, the answer by what a round
of an undecided MRTEST can do. -/
theorem engineMakesProgress : Obligations.EngineMakesProgress := by
  refine ⟨fun s job hInv hr he hexec hq => ?_, fun s v job hInv hr he hexec hq => ?_⟩
  · obtain ⟨i, m, hdec, hevent, hm⟩ := State.engineEvent_of_inv (s := s.pop) hInv hexec
    refine ⟨m, (step_engine hr he).trans hevent, ?_⟩
    obtain hidle | ⟨hq', hphase, rd, rn, imm8, rfl⟩ := hm.ends_or_requests hq
    · exact .inl hidle
    · exact .inr ⟨hq', hphase.trans hexec, rd, rn, imm8, hdec⟩
  · obtain ⟨n, mr, imm8, hn, hmr, hfits, hundecided⟩ := hInv.mr_of_pending hexec hq
    obtain ⟨-, -, hlt⟩ := hfits.undecided hundecided
    have hfits' := evalRound_fits v.toNat hfits hundecided
    exact ⟨_, mr, mr.evalRound n.toNat v.toNat,
      (step_answer hr he).trans (State.answer_of_pending (s := s.pop) v hq hexec hn hmr),
      hmr, rfl, rfl, hfits'.rounds_eq.trans hfits.rounds_eq.symm, hlt,
      MrState.evalRound_decides_or_passes v.toNat hfits hundecided⟩

end Sys2Proof.Machine
end
